-- ==== Sys2Proof/Word.lean ====
section
/-! DEFINITION. The bit patterns the machine works on: the 16-bit word, the byte of the two streams and the
3-bit register index (00_scope.md rules R6 to R8, 10_state.md rule R23). -/

namespace Sys2Proof

/-- WORD: the width of a register, of a memory cell, of an instruction and of an address (rule R6). -/
abbrev Word := BitVec 16

/-- One byte of the input source or the output sink, and one half of a word (rules R7, R32). -/
abbrev Byte := BitVec 8

/-- A register index: "the type of a 3-bit number", so there is no out-of-range case (rule R23). -/
abbrev RegIdx := BitVec 3

/-- The vector byte of TRAP (rule R210). -/
abbrev Vect := BitVec 8

end Sys2Proof
end

