-- ==== Sys2Proof/Syntax.lean ====
section
/-! DEFINITION. The instructions: one constructor for each of the 25 rows of spec/opcode_table.json, in the
table's order.  A constructor carries EVERY bit of its format, the bits no handler reads among them (the
arguments named `ign`: 30_encoding.md rules R83 and R86), so that a word and its instruction determine each
other and the diagnostic of a fatal error can record the whole word (60_exceptions.md rule R253). -/

namespace Sys2Proof

inductive Instr where
  /-- BR: mask bits n, z, p and offset9 (rule R161). -/
  | br (n z p : Bool) (off : BitVec 9)
  /-- ADD, register form (rule R141). -/
  | addReg (dr sr1 : RegIdx) (ign : BitVec 2) (sr2 : RegIdx)
  /-- ADD, immediate form (rule R142). -/
  | addImm (dr sr1 : RegIdx) (imm : BitVec 5)
  /-- LD (rule R181). -/
  | ld (dr : RegIdx) (off : BitVec 9)
  /-- ST (rule R185). -/
  | st (sr : RegIdx) (off : BitVec 9)
  /-- JSR (rule R163). -/
  | jsr (off : BitVec 11)
  /-- JSRR (rule R164). -/
  | jsrr (ignHi : BitVec 2) (base : RegIdx) (ignLo : BitVec 6)
  /-- AND, register form (rule R143). -/
  | andReg (dr sr1 : RegIdx) (ign : BitVec 2) (sr2 : RegIdx)
  /-- AND, immediate form (rule R144). -/
  | andImm (dr sr1 : RegIdx) (imm : BitVec 5)
  /-- LDR (rule R183). -/
  | ldr (dr base : RegIdx) (off : BitVec 6)
  /-- STR (rule R187). -/
  | str (sr base : RegIdx) (off : BitVec 6)
  /-- Opcode 1000, which has no handler (rule R241). -/
  | unimplemented1000 (ign : BitVec 12)
  /-- NOT (rule R145). -/
  | not (dr sr : RegIdx) (ign : BitVec 6)
  /-- LDI (rule R182). -/
  | ldi (dr : RegIdx) (off : BitVec 9)
  /-- STI (rule R186). -/
  | sti (sr : RegIdx) (off : BitVec 9)
  /-- JMP, written RET when the base register is R7 (rule R162). -/
  | jmp (ignHi : BitVec 3) (base : RegIdx) (ignLo : BitVec 6)
  /-- Opcode 1101, which has no handler (rule R242). -/
  | unimplemented1101 (ign : BitVec 12)
  /-- LEA (rule R184). -/
  | lea (dr : RegIdx) (off : BitVec 9)
  /-- TRAP x20, GETC (rule R212). -/
  | trapGetc (ign : BitVec 4)
  /-- TRAP x21, OUT (rule R213). -/
  | trapOut (ign : BitVec 4)
  /-- TRAP x22, PUTS (rule R214). -/
  | trapPuts (ign : BitVec 4)
  /-- TRAP x23, IN (rule R215). -/
  | trapIn (ign : BitVec 4)
  /-- TRAP x24, PUTSP (rule R216). -/
  | trapPutsp (ign : BitVec 4)
  /-- TRAP x25, HALT (rule R218). -/
  | trapHalt (ign : BitVec 4)
  /-- TRAP with a vector that names no service (rule R219). -/
  | trapUnknown (ign : BitVec 4) (vect : Vect)
  deriving DecidableEq, Repr

/-- The sixteen values of the opcode field by the name of their handler; `none1000` and `none1101` are the two
without one (30_encoding.md rule R84).  Every semantic rule is stated per handler name; the numbers stand in
Decode.lean alone. -/
inductive Opcode where
  | br | add | ld | st | jsr | and | ldr | str | none1000 | not | ldi | sti | jmp | none1101 | lea | trap
  deriving DecidableEq, Repr

/-- The opcode value whose handler executes an instruction (rules R81 and R122). -/
def Instr.opcode : Instr → Opcode
  | .br _ _ _ _ => .br
  | .addReg _ _ _ _ => .add
  | .addImm _ _ _ => .add
  | .ld _ _ => .ld
  | .st _ _ => .st
  | .jsr _ => .jsr
  | .jsrr _ _ _ => .jsr
  | .andReg _ _ _ _ => .and
  | .andImm _ _ _ => .and
  | .ldr _ _ _ => .ldr
  | .str _ _ _ => .str
  | .unimplemented1000 _ => .none1000
  | .not _ _ _ => .not
  | .ldi _ _ => .ldi
  | .sti _ _ => .sti
  | .jmp _ _ _ => .jmp
  | .unimplemented1101 _ => .none1101
  | .lea _ _ => .lea
  | .trapGetc _ => .trap
  | .trapOut _ => .trap
  | .trapPuts _ => .trap
  | .trapIn _ => .trap
  | .trapPutsp _ => .trap
  | .trapHalt _ => .trap
  | .trapUnknown _ _ => .trap

end Sys2Proof
end

