-- ==== Sys2Proof/WellFormed.lean ====
section
/-! DEFINITION. Which instruction terms stand for a word.  Every field has the width of its bits, so one check
is left: the row of the unknown trap vectors applies "only when vect8 is not 0x20..0x25" (44_trap.md rule R219,
opcode_table.json, last row). -/

namespace Sys2Proof

/-- The six vectors of the service map: 0x20 to 0x25 (30_encoding.md rule R88). -/
def isServiceVector (v : Vect) : Bool :=
  0x20 ≤ v.toNat && v.toNat ≤ 0x25

/-- An instruction term that some word encodes. -/
def Instr.wf : Instr → Bool
  | .trapUnknown _ v => !isServiceVector v
  | .br _ _ _ _ | .addReg _ _ _ _ | .addImm _ _ _ | .ld _ _ | .st _ _ | .jsr _ | .jsrr _ _ _ | .andReg _ _ _ _
  | .andImm _ _ _ | .ldr _ _ _ | .str _ _ _ | .unimplemented1000 _ | .not _ _ _ | .ldi _ _ | .sti _ _
  | .jmp _ _ _ | .unimplemented1101 _ | .lea _ _ | .trapGetc _ | .trapOut _ | .trapPuts _ | .trapIn _
  | .trapPutsp _ | .trapHalt _ => true

end Sys2Proof
end

