-- ==== Sys2Proof/Decode.lean ====
section
/-! DEFINITION. The decoder and the encoder, both from the formats of 30_encoding.md rules R82 to R88.  The
opcode numbers, field positions and vector numbers are the LC-3's, which the spec adopts (92_eei_decisions.md
D2 to D5; assumption log 1). -/

namespace Sys2Proof

/-! ## The opcode map and the trap vector map -/

/-- OPCODE_MAP: the value of `ir[15:12]` of each handler (rule R84). -/
def Opcode.toField : Opcode → BitVec 4
  | .br => 0b0000#4
  | .add => 0b0001#4
  | .ld => 0b0010#4
  | .st => 0b0011#4
  | .jsr => 0b0100#4
  | .and => 0b0101#4
  | .ldr => 0b0110#4
  | .str => 0b0111#4
  | .none1000 => 0b1000#4
  | .not => 0b1001#4
  | .ldi => 0b1010#4
  | .sti => 0b1011#4
  | .jmp => 0b1100#4
  | .none1101 => 0b1101#4
  | .lea => 0b1110#4
  | .trap => 0b1111#4

/-- OPCODE_MAP read backwards: the handler that a value of `ir[15:12]` selects (rule R84). -/
def Opcode.ofField (f : BitVec 4) : Opcode :=
  if f = 0b0000#4 then .br
  else if f = 0b0001#4 then .add
  else if f = 0b0010#4 then .ld
  else if f = 0b0011#4 then .st
  else if f = 0b0100#4 then .jsr
  else if f = 0b0101#4 then .and
  else if f = 0b0110#4 then .ldr
  else if f = 0b0111#4 then .str
  else if f = 0b1000#4 then .none1000
  else if f = 0b1001#4 then .not
  else if f = 0b1010#4 then .ldi
  else if f = 0b1011#4 then .sti
  else if f = 0b1100#4 then .jmp
  else if f = 0b1101#4 then .none1101
  else if f = 0b1110#4 then .lea
  else .trap

/-- TRAP dispatches on its low byte (rule R210) by the vector map (rule R88). -/
def decodeTrap (ign : BitVec 4) (v : Vect) : Instr :=
  if v = 0x20#8 then .trapGetc ign
  else if v = 0x21#8 then .trapOut ign
  else if v = 0x22#8 then .trapPuts ign
  else if v = 0x23#8 then .trapIn ign
  else if v = 0x24#8 then .trapPutsp ign
  else if v = 0x25#8 then .trapHalt ign
  else .trapUnknown ign v

/-! ## The decoder -/

/-- Decode (40_cycle.md rule R122): total, since every one of the 65536 words has a rule (rule R89).  The opcode
selects the handler; `ir[5]` selects the form of ADD and AND, `ir[11]` JSR or JSRR, the low byte the service. -/
def decodeWord (ir : Word) : Instr :=
  match Opcode.ofField (ir.extractLsb' 12 4) with
  | .br => .br (ir.getLsbD 11) (ir.getLsbD 10) (ir.getLsbD 9) (ir.extractLsb' 0 9)
  | .add =>
    if ir.getLsbD 5 then .addImm (ir.extractLsb' 9 3) (ir.extractLsb' 6 3) (ir.extractLsb' 0 5)
    else .addReg (ir.extractLsb' 9 3) (ir.extractLsb' 6 3) (ir.extractLsb' 3 2) (ir.extractLsb' 0 3)
  | .ld => .ld (ir.extractLsb' 9 3) (ir.extractLsb' 0 9)
  | .st => .st (ir.extractLsb' 9 3) (ir.extractLsb' 0 9)
  | .jsr =>
    if ir.getLsbD 11 then .jsr (ir.extractLsb' 0 11)
    else .jsrr (ir.extractLsb' 9 2) (ir.extractLsb' 6 3) (ir.extractLsb' 0 6)
  | .and =>
    if ir.getLsbD 5 then .andImm (ir.extractLsb' 9 3) (ir.extractLsb' 6 3) (ir.extractLsb' 0 5)
    else .andReg (ir.extractLsb' 9 3) (ir.extractLsb' 6 3) (ir.extractLsb' 3 2) (ir.extractLsb' 0 3)
  | .ldr => .ldr (ir.extractLsb' 9 3) (ir.extractLsb' 6 3) (ir.extractLsb' 0 6)
  | .str => .str (ir.extractLsb' 9 3) (ir.extractLsb' 6 3) (ir.extractLsb' 0 6)
  | .none1000 => .unimplemented1000 (ir.extractLsb' 0 12)
  | .not => .not (ir.extractLsb' 9 3) (ir.extractLsb' 6 3) (ir.extractLsb' 0 6)
  | .ldi => .ldi (ir.extractLsb' 9 3) (ir.extractLsb' 0 9)
  | .sti => .sti (ir.extractLsb' 9 3) (ir.extractLsb' 0 9)
  | .jmp => .jmp (ir.extractLsb' 9 3) (ir.extractLsb' 6 3) (ir.extractLsb' 0 6)
  | .none1101 => .unimplemented1101 (ir.extractLsb' 0 12)
  | .lea => .lea (ir.extractLsb' 9 3) (ir.extractLsb' 0 9)
  | .trap => decodeTrap (ir.extractLsb' 8 4) (ir.extractLsb' 0 8)

/-! ## The encoder: each format of rule R83, its fields from the most significant down -/

/-- Format TRAP. -/
def encodeTrap (ign : BitVec 4) (v : Vect) : Word :=
  Opcode.toField .trap ++ ign ++ v

/-- The word of an instruction. -/
def encode : Instr → Word
  | .br n z p off =>
    Opcode.toField .br ++ BitVec.ofBool n ++ BitVec.ofBool z ++ BitVec.ofBool p ++ off
  | .addReg dr sr1 ign sr2 => Opcode.toField .add ++ dr ++ sr1 ++ 0b0#1 ++ ign ++ sr2
  | .addImm dr sr1 imm => Opcode.toField .add ++ dr ++ sr1 ++ 0b1#1 ++ imm
  | .ld dr off => Opcode.toField .ld ++ dr ++ off
  | .st sr off => Opcode.toField .st ++ sr ++ off
  | .jsr off => Opcode.toField .jsr ++ 0b1#1 ++ off
  | .jsrr ignHi base ignLo => Opcode.toField .jsr ++ 0b0#1 ++ ignHi ++ base ++ ignLo
  | .andReg dr sr1 ign sr2 => Opcode.toField .and ++ dr ++ sr1 ++ 0b0#1 ++ ign ++ sr2
  | .andImm dr sr1 imm => Opcode.toField .and ++ dr ++ sr1 ++ 0b1#1 ++ imm
  | .ldr dr base off => Opcode.toField .ldr ++ dr ++ base ++ off
  | .str sr base off => Opcode.toField .str ++ sr ++ base ++ off
  | .unimplemented1000 ign => Opcode.toField .none1000 ++ ign
  | .not dr sr ign => Opcode.toField .not ++ dr ++ sr ++ ign
  | .ldi dr off => Opcode.toField .ldi ++ dr ++ off
  | .sti sr off => Opcode.toField .sti ++ sr ++ off
  | .jmp ignHi base ignLo => Opcode.toField .jmp ++ ignHi ++ base ++ ignLo
  | .unimplemented1101 ign => Opcode.toField .none1101 ++ ign
  | .lea dr off => Opcode.toField .lea ++ dr ++ off
  | .trapGetc ign => encodeTrap ign 0x20#8
  | .trapOut ign => encodeTrap ign 0x21#8
  | .trapPuts ign => encodeTrap ign 0x22#8
  | .trapIn ign => encodeTrap ign 0x23#8
  | .trapPutsp ign => encodeTrap ign 0x24#8
  | .trapHalt ign => encodeTrap ign 0x25#8
  | .trapUnknown ign v => encodeTrap ign v

/-! ## Bytes in the order this model stores a word (assumption log 2) -/

/-- Why a byte sequence holds no instruction: it is shorter than the one word an instruction takes (rule R80).
No word is rejected: an opcode without a handler and an unknown vector are instructions of their own, whose
meaning is the fatal decode error (rules R87 and R88). -/
inductive DecodeReject where
  | truncatedWord
  deriving DecidableEq, Repr

/-- Decoding at the front of a byte sequence, low byte of the word first: the instruction and the bytes after
it, or the rejection by name. -/
def decode : List Byte → Except DecodeReject (Instr × List Byte)
  | lo :: hi :: rest => .ok (decodeWord (hi ++ lo), rest)
  | [_] => .error .truncatedWord
  | [] => .error .truncatedWord

/-- The bytes of an instruction, in the order `decode` reads them. -/
def encodeBytes (i : Instr) : List Byte :=
  [(encode i).extractLsb' 0 8, (encode i).extractLsb' 8 8]

/-- The instruction of an opcode-table word of `nbits` bits (at most one word here); the bits above are zero. -/
def decodeTableWord (nbits w : Nat) : Option Instr :=
  let ir : Word := BitVec.ofNat 16 (w % 2 ^ nbits)
  match decode [ir.extractLsb' 0 8, ir.extractLsb' 8 8] with
  | .ok (i, []) => if nbits ≤ 16 then some i else none
  | .ok (_, _ :: _) => none
  | .error _ => none

end Sys2Proof
end

