-- ==== Sys2Proof/Config.lean ====
section
/-! DEFINITION. The OPEN parameters of the hardware (00_scope.md rule R6) and the spec's defaults for them.
Four of them are used by reset alone and are arguments of it.  IN_PROMPT and SINK_CAN_FAIL are read while the
machine runs: State carries them unchanged, so that a statement about every state holds for every value of them
(assumption log 7 and 8).  And the free values of an input source without end (assumption log 9). -/

namespace Sys2Proof

/-- The condition code: exactly one of three mutually exclusive flags (10_state.md rule R27). -/
inductive Cond where
  | P
  | Z
  | N
  deriving DecidableEq, Repr

/-! ## Free values: an input source without end

The spec says that the input source "may be finite" and "may deliver its bytes late" (10_state.md rule R32) and nothing of
what a source without end delivers, so nothing constrains these two (assumption log 9). -/

/-- FREE VALUE: the byte number `k` of an input source without end. -/
opaque endlessByte : Nat → Byte

/-- FREE VALUE: how many times that source has nothing yet before its byte number `k` is there. -/
opaque endlessDelay : Nat → Nat

/-! ## Parameters -/

/-- The two parameters a running machine reads. -/
structure IoParams where
  /-- IN_PROMPT: the bytes the IN service writes before it reads; any finite byte string (rule R6, decision D15). -/
  inPrompt : List Byte
  /-- SINK_CAN_FAIL: whether the output sink may report failure (rule R6, decision D21). -/
  sinkCanFail : Bool
  deriving DecidableEq, Repr

/-- All the OPEN parameters of rule R6. -/
structure Params where
  /-- PC_START. -/
  pcStart : Word
  /-- COND_RESET. -/
  condReset : Cond
  /-- REG_RESET. -/
  regReset : Vector Word 8
  /-- MEM_RESET, in the canonical form of Machine/Memory.lean. -/
  memReset : List Host.Cell
  /-- IN_PROMPT and SINK_CAN_FAIL. -/
  io : IoParams
  deriving DecidableEq, Repr

/-- The defaults of rule R6: PC 0x3000, COND Z, registers and memory zero, no prompt, a sink that never fails.
UNSAFE where a statement leans on one of them (assumption log 3 to 8). -/
def Params.default : Params where
  pcStart := 0x3000#16
  condReset := .Z
  regReset := Vector.replicate 8 0#16
  memReset := []
  io := ⟨[], false⟩

end Sys2Proof
end

