-- ==== Sys2Proof/Machine/State.lean ====
section
/-! DEFINITION. Everything the spec gives the machine, as plain data (10_state.md rule R20), with the two streams of
the environment beside it (rule R32); the reasons a step can stop; and the state after reset (rule R36). -/

namespace Sys2Proof.Machine

/-! ## The run-loop state -/

/-- The diagnostic of a fatal error: "the offending instruction and PC" (60_exceptions.md rule R253). -/
structure Diagnostic where
  /-- The instruction word. -/
  ir : Word
  /-- The address it was fetched from. -/
  addr : Word
  deriving DecidableEq, Repr

/-- The kinds of fatal error (60_exceptions.md rule R251). -/
inductive FatalKind where
  | decodeError
  | ioError
  | internalInvariant
  deriving DecidableEq, Repr

/-- The complete list of fatal causes, each with the information it records (60_exceptions.md rule R251). -/
inductive FatalCause where
  | unknownOpcode (d : Diagnostic)
  | unknownTrapVector (d : Diagnostic)
  | inputFailed (d : Diagnostic)
  | outputFailed (d : Diagnostic)
  /-- Unreachable: the source's taxonomy has the name, no transition raises it (rule R256). -/
  | internalInvariant
  deriving DecidableEq, Repr

/-- The kind of a cause (rule R251). -/
def FatalCause.kind : FatalCause → FatalKind
  | .unknownOpcode _ => .decodeError
  | .unknownTrapVector _ => .decodeError
  | .inputFailed _ => .ioError
  | .outputFailed _ => .ioError
  | .internalInvariant => .internalInvariant

/-- RUN, the run-loop state (10_state.md rule R31); the kind in `Fatal(kind, info)` is the kind of the cause. -/
inductive Run where
  | running
  | halted
  | fatal (c : FatalCause)
  deriving DecidableEq, Repr

/-! ## The streams of the environment -/

/-- The input source: what it still has to deliver, its next move first.  "It may be finite, and it may deliver its bytes
late (a read blocks until the next byte is there or the source reports its end)" (rule R32), and it may report an error
(44_trap.md rule R217).  The last three forms are the three ways a source goes on past its written moves: it has ended,
it blocks for ever, or it delivers bytes without end (assumption log 9). -/
inductive InputSource where
  /-- The next byte is there. -/
  | byte (b : Byte) (rest : InputSource)
  /-- Nothing yet: a read blocks through this move (40_cycle.md rule R128). -/
  | late (rest : InputSource)
  /-- The source reports an error. -/
  | error (rest : InputSource)
  /-- The source reports its end, as often as it is asked. -/
  | ended
  /-- Nothing yet, for ever: a read never returns. -/
  | silent
  /-- Bytes without end: the byte number `k` is next, and the source has had nothing yet `waited` times before it.  The
  bytes and the delays are free values of Config. -/
  | endless (k waited : Nat)
  deriving DecidableEq, Repr

/-- An event the output sink has accepted (rules R32 and R33). -/
inductive SinkEvent where
  | byte (b : Byte)
  | flush
  deriving DecidableEq, Repr

/-- The answer the output sink gives to one `OutByte` or `OutFlush`, read only if SINK_CAN_FAIL (assumption log 8). -/
inductive SinkAnswer where
  | ok
  | fail
  deriving DecidableEq, Repr

/-! ## The state -/

/-- The machine and its environment. -/
@[ext]
structure State where
  /-- R0 to R7 (rules R21 to R23). -/
  regs : Vector Word 8
  /-- PC (rules R24 to R26): the next fetch address between cycles, the post-fetch PC inside one. -/
  pc : Word
  /-- COND (rules R27 to R29). -/
  cond : Cond
  /-- RUN (rule R31). -/
  run : Run
  /-- Memory (20_memory.md rules R50 and R51), in the canonical form of Machine/Memory.lean. -/
  mem : List Host.Cell
  /-- The input source: what the core has not yet taken from it (rule R32; log 9). -/
  input : InputSource
  /-- What the output sink has accepted since reset, oldest first (rules R32 and R33). -/
  output : List SinkEvent
  /-- The answers of the sink not yet given, the next one first; past the last one it accepts (log 8). -/
  sinkAnswers : List SinkAnswer
  /-- The parameters of the services, which no cycle changes (40_cycle.md rule R124; log 7 and 8). -/
  io : IoParams
  deriving DecidableEq, Repr

/-- What stops the machine without a next state.  A fatal error of the spec is not among them: it is a next state,
with `run` at `Fatal` (60_exceptions.md rule R250). -/
inductive Fault where
  /-- Raised by PUTS and PUTSP when the scan meets no zero word and no sink failure, ever: "the cycle never completes
  ... and the machine never reaches another state" (44_trap.md rule R220).  A stuck state.  SAFE: no state follows. -/
  | endlessString
  deriving DecidableEq, Repr

/-- What the model gives no meaning to. -/
inductive Refusal where
  /-- Raised by an arm of `exec` that has no meaning yet; no arm is left that raises it.  SAFE. -/
  | notModelled (mnemonic : String)
  deriving DecidableEq, Repr

/-! ## Reset -/

/-- What stands at the two streams when the machine is created: what the source will deliver and the answers
the sink will give. -/
structure Environment where
  input : InputSource
  sinkAnswers : List SinkAnswer
  deriving DecidableEq, Repr

/-- Reset (70_reset_and_hazards.md rule R290) at any setting of the OPEN parameters and any environment: every
element at the value of 10_state.md rule R36. -/
def State.resetWith (p : Params) (env : Environment) : State where
  regs := p.regReset
  pc := p.pcStart
  cond := p.condReset
  run := .running
  mem := p.memReset
  input := env.input
  output := []
  sinkAnswers := env.sinkAnswers
  io := p.io

/-- Reset at the default parameters of rule R6, with an input source that has ended and a sink whose answers are
all ok.  UNSAFE where a statement leans on a default or on the ended source (assumption log 3 to 9). -/
def State.reset : State :=
  State.resetWith Params.default ⟨.ended, []⟩

end Sys2Proof.Machine
end

