-- ==== Sys2Proof/Machine/Memory.lean ====
section
/-! DEFINITION. The memory array: 65536 cells of 16 bits, word-addressed (20_memory.md rules R50 to R58).  It is kept
as bytes in one canonical form, two bytes a cell: the low byte of cell `a` under key `2 a`, its high byte under key
`2 a + 1`.  The split is this model's and no access can show it, since every access moves a whole word (rule R57;
assumption log 2). -/

namespace Sys2Proof.Machine

abbrev Memory := List Host.Cell

/-- The number of keys: two for each of the 65536 cells (rule R50). -/
def memoryBytes : Nat := 2 * 65536

/-- What a byte that is not listed reads as: MEM_RESET's default, zero (rule R36; assumption log 6). -/
def unlistedByte : Byte := 0x00#8

/-- The canonical form: keys strictly rising and inside the memory, no entry equal to what an unlisted key reads as. -/
abbrev Memory.wf (m : Memory) : Prop :=
  m.Pairwise (fun x y => x.1 < y.1) ∧ ∀ c ∈ m, c.1 < memoryBytes ∧ c.2 ≠ unlistedByte

/-! ## Bytes -/

def memReadByte : Memory → Nat → Byte
  | [], _ => unlistedByte
  | (k, b) :: m, a => if k = a then b else memReadByte m a

/-- Entry of a byte under a key that is not listed, at its place in the order. -/
def memInsertByte : Memory → Nat → Byte → Memory
  | [], a, v => [(a, v)]
  | (k, b) :: m, a, v => if a < k then (a, v) :: (k, b) :: m else (k, b) :: memInsertByte m a v

def memWriteByte (m : Memory) (a : Nat) (v : Byte) : Memory :=
  let others := m.filter (fun c => c.1 != a)
  if v = unlistedByte then others else memInsertByte others a v

/-! ## Words -/

/-- `w[7:0]` (00_scope.md rule R7). -/
def lowByte (w : Word) : Byte := w.extractLsb' 0 8

/-- `w[15:8]` (rule R7). -/
def highByte (w : Word) : Byte := w.extractLsb' 8 8

/-- The word with a given high and low byte. -/
def joinBytes (hi lo : Byte) : Word := hi ++ lo

/-- `MemRead(a, 1)` on the array: total (rule R51). -/
def memRead (m : Memory) (a : Word) : Word :=
  joinBytes (memReadByte m (2 * a.toNat + 1)) (memReadByte m (2 * a.toNat))

/-- `MemWrite(a, 1, v)` on the array: total, changes no other cell (rule R51). -/
def memWrite (m : Memory) (a v : Word) : Memory :=
  memWriteByte (memWriteByte m (2 * a.toNat) (lowByte v)) (2 * a.toNat + 1) (highByte v)

end Sys2Proof.Machine
end

