-- ==== Sys2Proof/Machine/Ops.lean ====
section
/-! DEFINITION. The named operations every meaning is made of: one update for each element of State, the register
file, the memory primitives, the fetch, the two streams, and the one way a cycle ends in a fatal error. -/

namespace Sys2Proof.Machine

/-! ## One update for each element -/

def State.withRegs (s : State) (v : Vector Word 8) : State := { s with regs := v }
def State.withPc (s : State) (v : Word) : State := { s with pc := v }
def State.withCond (s : State) (v : Cond) : State := { s with cond := v }
def State.withRun (s : State) (v : Run) : State := { s with run := v }
def State.withMem (s : State) (v : List Host.Cell) : State := { s with mem := v }
def State.withInput (s : State) (v : InputSource) : State := { s with input := v }
def State.withOutput (s : State) (v : List SinkEvent) : State := { s with output := v }
def State.withSinkAnswers (s : State) (v : List SinkAnswer) : State := { s with sinkAnswers := v }

/-! ## Registers and memory -/

/-- `x[i]`: "a read returns that value with no side effect" (10_state.md rule R21). -/
def State.readReg (s : State) (r : RegIdx) : Word := s.regs[r.toNat]'r.isLt

/-- `x[i] <- v`; no register is hardwired, R0 is like the others (rules R21 and R22). -/
def State.writeReg (s : State) (r : RegIdx) (v : Word) : State := s.withRegs (s.regs.set r.toNat v r.isLt)

/-- `MemRead(a, 1)` (20_memory.md rule R51). -/
def State.readCell (s : State) (a : Word) : Word := memRead s.mem a

/-- `MemWrite(a, 1, v)` (rule R51). -/
def State.writeCell (s : State) (a v : Word) : State := s.withMem (memWrite s.mem a v)

/-- R0, the argument and result register of the services (rule R22). -/
def regR0 : RegIdx := 0#3

/-- R7, the link register of JSR and JSRR (rule R22). -/
def regR7 : RegIdx := 7#3

/-! ## The fetch -/

/-- The word the next cycle executes: `ir = MemRead(pc, 1)` (40_cycle.md rule R121). -/
def State.fetchWord (s : State) : Word := s.readCell s.pc

/-- The fetch increment, wrapping (rule R121; 10_state.md rule R25). -/
def State.advancePc (s : State) : State := s.withPc (s.pc + 1#16)

/-- The address the executing instruction was fetched from: `a = pc - 1 mod 65536` (60_exceptions.md rule R253). -/
def State.fetchAddr (s : State) : Word := s.pc - 1#16

/-! ## Fatal errors: the one way an exception is taken -/

/-- `raise Fatal(kind, info)`: `run` is set and nothing else; nothing is saved, control goes nowhere and the PC keeps
its post-fetch value (60_exceptions.md rules R250 and R253).  There is no return from it (rule R255). -/
def State.raiseFatal (s : State) (c : FatalCause) : State := s.withRun (.fatal c)

/-- The diagnostic of the executing instruction, whose word is `ir` (rule R253). -/
def State.diagnostic (s : State) (ir : Word) : Diagnostic := ⟨ir, s.fetchAddr⟩

/-! ## The input source -/

/-- The answer to `InByte()` (44_trap.md rule R217, 40_cycle.md rule R128), with the source after it. -/
inductive InputAnswer where
  | byte (b : Byte) (rest : InputSource)
  | failed (rest : InputSource)
  | notYet (rest : InputSource)
  deriving DecidableEq, Repr

/-- What the source answers: its next move (10_state.md rule R32). -/
def InputSource.answer : InputSource → InputAnswer
  | .byte b rest => .byte b rest
  | .late rest => .notYet rest
  | .error rest => .failed rest
  | .ended => .failed .ended
  | .silent => .notYet .silent
  | .endless k waited =>
    if waited < endlessDelay k then .notYet (.endless k (waited + 1)) else .byte (endlessByte k) (.endless (k + 1) 0)

/-- The source once it can answer, all its waiting done; `none` if it never can (40_cycle.md rule R128). -/
def InputSource.await : InputSource → Option InputSource
  | .byte b rest => some (.byte b rest)
  | .late rest => rest.await
  | .error rest => some (.error rest)
  | .ended => some .ended
  | .silent => none
  | .endless k waited => some (.endless k (max waited (endlessDelay k)))

/-- `InByte()` (rule R32). -/
def State.inByte (s : State) : InputAnswer := s.input.answer

/-- A cycle that is not enabled because the source cannot answer yet: no state changes and the PC has not advanced;
the source makes its move (40_cycle.md rule R128; assumption log 9).  Applied to the state after the fetch. -/
def State.hold (s : State) (rest : InputSource) : State := (s.withPc s.fetchAddr).withInput rest

/-! ## The output sink -/

/-- The outcome of one or more operations on the sink. -/
inductive SinkResult where
  | accepted (s : State)
  | failed (s : State)
  deriving DecidableEq, Repr

/-- One operation on the sink.  Unless SINK_CAN_FAIL it accepts; otherwise its next answer decides, and past the last
one it accepts (44_trap.md rule R217; assumption log 8). -/
def State.sinkTake (s : State) (e : SinkEvent) : SinkResult :=
  if s.io.sinkCanFail then
    match s.sinkAnswers with
    | .fail :: rest => .failed (s.withSinkAnswers rest)
    | .ok :: rest => .accepted ((s.withSinkAnswers rest).withOutput (s.output ++ [e]))
    | [] => .accepted (s.withOutput (s.output ++ [e]))
  else .accepted (s.withOutput (s.output ++ [e]))

/-- `OutByte(b)` (10_state.md rule R32). -/
def State.outByte (s : State) (b : Byte) : SinkResult := s.sinkTake (.byte b)

/-- `OutFlush()` (rules R32 and R33). -/
def State.outFlush (s : State) : SinkResult := s.sinkTake .flush

/-- `OutByte` for each byte in order, up to the first that fails: "bytes already accepted stay in the output, no
further byte is written" (44_trap.md rule R217). -/
def State.outBytes (s : State) : List Byte → SinkResult
  | [] => .accepted s
  | b :: bs =>
    match s.outByte b with
    | .accepted s' => s'.outBytes bs
    | .failed s' => .failed s'

end Sys2Proof.Machine
end

