-- ==== Sys2Proof/Machine/Flags.lean ====
section
/-! DEFINITION. The condition code: how a written value sets it (10_state.md rule R28) and how BR tests it
(42_control.md rule R161). -/

namespace Sys2Proof.Machine

/-- The flag of a value: Z if it is zero, N if bit 15 is set, P otherwise (rule R28). -/
def condOf (v : Word) : Cond :=
  if v = 0x0000#16 then .Z
  else if v.getLsbD 15 then .N
  else .P

/-- `setcc(i)`: COND from register i, read after it was written (rule R28). -/
def State.setcc (s : State) (r : RegIdx) : State := s.withCond (condOf (s.readReg r))

/-- The write of a destination register by a handler that defines one: the register, then COND from it (rule R29). -/
def State.writeDest (s : State) (dr : RegIdx) (v : Word) : State := (s.writeReg dr v).setcc dr

/-- The 3-bit one-hot form of COND: N = 100, Z = 010, P = 001 (rule R27; decision D4, assumption log 1). -/
def condBits : Cond → BitVec 3
  | .N => 0b100#3
  | .Z => 0b010#3
  | .P => 0b001#3

/-- Whether BR with mask bits n, z, p is taken: the mask bit of the current flag is 1 (rule R161). -/
def branchTaken (n z p : Bool) (c : Cond) : Bool :=
  (n && c == .N) || (z && c == .Z) || (p && c == .P)

end Sys2Proof.Machine
end

