-- ==== Sys2Proof/Machine/Operands.lean ====
section
/-! DEFINITION. The operand forms: sign and zero extension (00_scope.md rule R9) and the three addressing modes
(43_load_store.md rule R180). In each the PC is the post-fetch PC. -/

namespace Sys2Proof.Machine

/-- `sext_N(v)` of an N-bit field (rule R9; 30_encoding.md rule R85). -/
def sext {n : Nat} (v : BitVec n) : Word := v.signExtend 16

/-- `zext_16(b)` of a byte (rule R9). -/
def zextByte (b : Byte) : Word := b.setWidth 16

/-- PC-relative: `pc +16 sext_N(offset)`; the address of LD, ST and LEA, the pointer cell of LDI and STI, the target of
BR and JSR (rules R180 and R160). -/
def State.pcRelative {n : Nat} (s : State) (off : BitVec n) : Word := s.pc + sext off

/-- Indirect: the address that stands in the cell `pc +16 sext_9(offset9)` (rule R180). -/
def State.indirect (s : State) (off : BitVec 9) : Word := s.readCell (s.pcRelative off)

/-- Base plus offset: `x[BaseR] +16 sext_6(offset6)` (rule R180). -/
def State.basePlus (s : State) (base : RegIdx) (off : BitVec 6) : Word := s.readReg base + sext off

end Sys2Proof.Machine
end

