-- ==== Sys2Proof/Machine/Control.lean ====
section
/-! DEFINITION. Control transfer: BR, JMP, JSR and JSRR (42_control.md rules R160 to R165).  None of them writes COND
or touches memory. -/

namespace Sys2Proof.Machine

/-- BR: to `pc +16 sext_9(offset9)` if the mask bit of the current flag is 1, else no effect (rule R161). -/
def execBr (n z p : Bool) (off : BitVec 9) (s : State) : Host.Outcome State Fault Refusal :=
  .next (if branchTaken n z p s.cond then s.withPc (s.pcRelative off) else s)

/-- JMP, and RET when the base register is R7: `pc <- x[BaseR]` (rule R162). -/
def execJmp (base : RegIdx) (s : State) : Host.Outcome State Fault Refusal :=
  .next (s.withPc (s.readReg base))

/-- JSR: `x[7] <- pc`, then `pc <- pc +16 sext_11(offset11)` (rule R163). -/
def execJsr (off : BitVec 11) (s : State) : Host.Outcome State Fault Refusal :=
  .next ((s.writeReg regR7 s.pc).withPc (s.pcRelative off))

/-- JSRR: `x[7] <- pc`, then `pc <- x[BaseR]`, the base read after the write of R7 (rule R164; decision D16,
assumption log 12). -/
def execJsrr (base : RegIdx) (s : State) : Host.Outcome State Fault Refusal :=
  let linked := s.writeReg regR7 s.pc
  .next (linked.withPc (linked.readReg base))

end Sys2Proof.Machine
end

