-- ==== Sys2Proof/Machine/LoadStore.lean ====
section
/-! DEFINITION. Loads, stores and LEA (43_load_store.md rules R180 to R187). -/

namespace Sys2Proof.Machine

/-- LD: `x[DR] <- MemRead(pc +16 sext_9(offset9)); setcc(DR)` (rule R181). -/
def execLd (dr : RegIdx) (off : BitVec 9) (s : State) : Host.Outcome State Fault Refusal :=
  .next (s.writeDest dr (s.readCell (s.pcRelative off)))

/-- LDI: the pointer, then the data at the address it holds; COND from the data (rule R182). -/
def execLdi (dr : RegIdx) (off : BitVec 9) (s : State) : Host.Outcome State Fault Refusal :=
  .next (s.writeDest dr (s.readCell (s.indirect off)))

/-- LDR: `x[DR] <- MemRead(x[BaseR] +16 sext_6(offset6)); setcc(DR)` (rule R183). -/
def execLdr (dr base : RegIdx) (off : BitVec 6) (s : State) : Host.Outcome State Fault Refusal :=
  .next (s.writeDest dr (s.readCell (s.basePlus base off)))

/-- LEA: the address itself; this hardware sets COND from it (rule R184). -/
def execLea (dr : RegIdx) (off : BitVec 9) (s : State) : Host.Outcome State Fault Refusal :=
  .next (s.writeDest dr (s.pcRelative off))

/-- ST: `MemWrite(pc +16 sext_9(offset9), x[SR])` (rule R185). -/
def execSt (sr : RegIdx) (off : BitVec 9) (s : State) : Host.Outcome State Fault Refusal :=
  .next (s.writeCell (s.pcRelative off) (s.readReg sr))

/-- STI: the pointer is read, then the data written at the address it holds (rule R186). -/
def execSti (sr : RegIdx) (off : BitVec 9) (s : State) : Host.Outcome State Fault Refusal :=
  .next (s.writeCell (s.indirect off) (s.readReg sr))

/-- STR: `MemWrite(x[BaseR] +16 sext_6(offset6), x[SR])` (rule R187). -/
def execStr (sr base : RegIdx) (off : BitVec 6) (s : State) : Host.Outcome State Fault Refusal :=
  .next (s.writeCell (s.basePlus base off) (s.readReg sr))

end Sys2Proof.Machine
end

