-- ==== Sys2Proof/Machine/Operate.lean ====
section
/-! DEFINITION. The operate instructions ADD, AND and NOT (41_operate.md rules R140 to R145). -/

namespace Sys2Proof.Machine

/-- ADD, register form: `x[DR] <- x[SR1] +16 x[SR2]; setcc(DR)` (rule R141). -/
def execAddReg (dr sr1 sr2 : RegIdx) (s : State) : Host.Outcome State Fault Refusal :=
  .next (s.writeDest dr (s.readReg sr1 + s.readReg sr2))

/-- ADD, immediate form: `x[DR] <- x[SR1] +16 sext_5(imm5); setcc(DR)` (rule R142). -/
def execAddImm (dr sr1 : RegIdx) (imm : BitVec 5) (s : State) : Host.Outcome State Fault Refusal :=
  .next (s.writeDest dr (s.readReg sr1 + sext imm))

/-- AND, register form: `x[DR] <- x[SR1] & x[SR2]; setcc(DR)` (rule R143). -/
def execAndReg (dr sr1 sr2 : RegIdx) (s : State) : Host.Outcome State Fault Refusal :=
  .next (s.writeDest dr (s.readReg sr1 &&& s.readReg sr2))

/-- AND, immediate form: `x[DR] <- x[SR1] & sext_5(imm5); setcc(DR)` (rule R144). -/
def execAndImm (dr sr1 : RegIdx) (imm : BitVec 5) (s : State) : Host.Outcome State Fault Refusal :=
  .next (s.writeDest dr (s.readReg sr1 &&& sext imm))

/-- NOT: `x[DR] <- ~x[SR]; setcc(DR)` (rule R145). -/
def execNot (dr sr : RegIdx) (s : State) : Host.Outcome State Fault Refusal :=
  .next (s.writeDest dr (~~~s.readReg sr))

end Sys2Proof.Machine
end

