-- ==== Sys2Proof/Machine/Trap.lean ====
section
/-! DEFINITION. TRAP: the six built-in services and the unknown vector (44_trap.md rules R210 to R220).  A service runs
inside the one cycle of its TRAP; TRAP saves nothing, writes no register but R0 (GETC and IN), no COND, no PC and no
memory (rule R211).  The argument `ign` is `ir[11:8]`, which only the diagnostic of a fatal error shows. -/

namespace Sys2Proof.Machine

/-! ## Which instructions read the input source -/

/-- The services that read the input source. -/
def readsInput : Instr → Bool
  | .trapGetc _ | .trapIn _ => true
  | .br _ _ _ _ | .addReg _ _ _ _ | .addImm _ _ _ | .ld _ _ | .st _ _ | .jsr _ | .jsrr _ _ _ | .andReg _ _ _ _
  | .andImm _ _ _ | .ldr _ _ _ | .str _ _ _ | .unimplemented1000 _ | .not _ _ _ | .ldi _ _ | .sti _ _ | .jmp _ _ _
  | .unimplemented1101 _ | .lea _ _ | .trapOut _ | .trapPuts _ | .trapPutsp _ | .trapHalt _ | .trapUnknown _ _ => false

/-! ## How a service ends -/

/-- `Fatal(IOError, InputFailed(ir, a))` (rule R217). -/
def State.failInput (s : State) (ir : Word) : State := s.raiseFatal (.inputFailed (s.diagnostic ir))

/-- `Fatal(IOError, OutputFailed(ir, a))` (rule R217). -/
def State.failOutput (s : State) (ir : Word) : State := s.raiseFatal (.outputFailed (s.diagnostic ir))

/-- The closing `OutFlush()` of a service that writes (10_state.md rule R33), or the fatal error if it fails. -/
def State.flushOrFail (s : State) (ir : Word) : State :=
  match s.outFlush with
  | .accepted s' => s'
  | .failed s' => s'.failOutput ir

/-- What GETC and IN do with the answer of the source: the byte, zero-extended, into R0 and no COND update; the fatal
error with R0 unwritten; or the wait (rules R212 and R217; 40_cycle.md rule R128). -/
def State.takeInput (s : State) (ir : Word) : InputAnswer → State
  | .byte b rest => (s.withInput rest).writeReg regR0 (zextByte b)
  | .failed rest => (s.withInput rest).failInput ir
  | .notYet rest => s.hold rest

/-! ## The scan of a string in memory -/

/-- The outcome of a scan. -/
inductive ScanResult where
  | ended (s : State)
  | failed (s : State)
  | endless
  deriving DecidableEq, Repr

/-- What PUTS writes of a word: the low byte (rule R214). -/
def putsBytes (w : Word) : List Byte := [lowByte w]

/-- What PUTSP writes of a word: the low byte, then the high byte unless it is zero (rule R216). -/
def putspBytes (w : Word) : List Byte :=
  if highByte w = 0x00#8 then [lowByte w] else [lowByte w, highByte w]

/-- The scan from cell `p` on, for at most `fuel` cells: it ends at the first cell that is zero as a whole; the address
wraps (rules R214, R216 and R220). -/
def scanString (emit : Word → List Byte) : Nat → Word → State → ScanResult
  | 0, _, _ => .endless
  | fuel + 1, p, s =>
    let w := s.readCell p
    if w = 0x0000#16 then .ended s
    else
      match s.outBytes (emit w) with
      | .accepted s' => scanString emit fuel (p + 1#16) s'
      | .failed s' => .failed s'

/-- As many cells as a scan that ever ends can read: when every answer of the sink has been given it accepts from then
on, and 65536 cells further the scan has seen the whole memory (rule R220). -/
def scanFuel (s : State) : Nat := s.sinkAnswers.length + 65536

/-- A string service: the scan from R0, then the flush. -/
def stringService (emit : Word → List Byte) (ir : Word) (s : State) : Host.Outcome State Fault Refusal :=
  match scanString emit (scanFuel s) (s.readReg regR0) s with
  | .ended s' => .next (s'.flushOrFail ir)
  | .failed s' => .next (s'.failOutput ir)
  | .endless => .fault .endlessString

/-! ## The services -/

/-- GETC (rule R212). -/
def execGetc (ign : BitVec 4) (s : State) : Host.Outcome State Fault Refusal :=
  .next (s.takeInput (encode (.trapGetc ign)) s.inByte)

/-- OUT: the low byte of R0, then the flush (rule R213). -/
def execOut (ign : BitVec 4) (s : State) : Host.Outcome State Fault Refusal :=
  let ir := encode (.trapOut ign)
  match s.outByte (lowByte (s.readReg regR0)) with
  | .accepted s' => .next (s'.flushOrFail ir)
  | .failed s' => .next (s'.failOutput ir)

/-- PUTS: one character in the low byte of each word (rule R214). -/
def execPuts (ign : BitVec 4) (s : State) : Host.Outcome State Fault Refusal :=
  stringService putsBytes (encode (.trapPuts ign)) s

/-- IN once the source can answer: the prompt, its flush, then the answer (rule R215). -/
def promptThenTake (ir : Word) (answer : InputAnswer) (s : State) : State :=
  match s.outBytes s.io.inPrompt with
  | .failed s' => s'.failOutput ir
  | .accepted s' =>
    match s'.outFlush with
    | .failed s'' => s''.failOutput ir
    | .accepted s'' => s''.takeInput ir answer

/-- IN: the prompt, the flush, then as GETC (rule R215).  The whole cycle waits until the source can answer, the prompt
included (40_cycle.md rule R128). -/
def execIn (ign : BitVec 4) (s : State) : Host.Outcome State Fault Refusal :=
  match s.inByte with
  | .notYet rest => .next (s.hold rest)
  | .byte b rest => .next (promptThenTake (encode (.trapIn ign)) (.byte b rest) s)
  | .failed rest => .next (promptThenTake (encode (.trapIn ign)) (.failed rest) s)

/-- PUTSP: two characters in each word, the low byte first (rule R216). -/
def execPutsp (ign : BitVec 4) (s : State) : Host.Outcome State Fault Refusal :=
  stringService putspBytes (encode (.trapPutsp ign)) s

/-- HALT: the flush, then `run <- Halted`; if the flush fails, the fatal error instead (rule R218). -/
def execHalt (ign : BitVec 4) (s : State) : Host.Outcome State Fault Refusal :=
  match s.outFlush with
  | .accepted s' => .next (s'.withRun .halted)
  | .failed s' => .next (s'.failOutput (encode (.trapHalt ign)))

/-- TRAP with any other vector: the fatal decode error, before any effect of a service (rule R219). -/
def execTrapUnknown (ign : BitVec 4) (vect : Vect) (s : State) : Host.Outcome State Fault Refusal :=
  .next (s.raiseFatal (.unknownTrapVector (s.diagnostic (encode (.trapUnknown ign vect)))))

end Sys2Proof.Machine
end

