-- ==== Sys2Proof/Machine/Unimplemented.lean ====
section
/-! DEFINITION. The two opcode values without a handler (45_unimplemented.md rules R240 to R243): the fatal decode
error, taken as a next state. -/

namespace Sys2Proof.Machine

/-- The fatal decode error of an opcode without a handler (60_exceptions.md rule R252). -/
def State.unknownOpcode (s : State) (ir : Word) : State := s.raiseFatal (.unknownOpcode (s.diagnostic ir))

/-- Opcode 1000 (rule R241). -/
def execUnimplemented1000 (ign : BitVec 12) (s : State) : Host.Outcome State Fault Refusal :=
  .next (s.unknownOpcode (encode (.unimplemented1000 ign)))

/-- Opcode 1101 (rule R242). -/
def execUnimplemented1101 (ign : BitVec 12) (s : State) : Host.Outcome State Fault Refusal :=
  .next (s.unknownOpcode (encode (.unimplemented1101 ign)))

end Sys2Proof.Machine
end

