-- ==== Sys2Proof/Machine/Dispatch.lean ====
section
/-! DEFINITION. Execute (40_cycle.md rule R123): one handler for each instruction, applied to the state after the fetch. -/

namespace Sys2Proof.Machine

def exec (i : Instr) (s : State) : Host.Outcome State Fault Refusal :=
  match i with
  | .br n z p off => Sys2Proof.Machine.execBr n z p off s
  | .addReg dr sr1 _ sr2 => Sys2Proof.Machine.execAddReg dr sr1 sr2 s
  | .addImm dr sr1 imm => Sys2Proof.Machine.execAddImm dr sr1 imm s
  | .ld dr off => Sys2Proof.Machine.execLd dr off s
  | .st sr off => Sys2Proof.Machine.execSt sr off s
  | .jsr off => Sys2Proof.Machine.execJsr off s
  | .jsrr _ base _ => Sys2Proof.Machine.execJsrr base s
  | .andReg dr sr1 _ sr2 => Sys2Proof.Machine.execAndReg dr sr1 sr2 s
  | .andImm dr sr1 imm => Sys2Proof.Machine.execAndImm dr sr1 imm s
  | .ldr dr base off => Sys2Proof.Machine.execLdr dr base off s
  | .str sr base off => Sys2Proof.Machine.execStr sr base off s
  | .unimplemented1000 ign => Sys2Proof.Machine.execUnimplemented1000 ign s
  | .not dr sr _ => Sys2Proof.Machine.execNot dr sr s
  | .ldi dr off => Sys2Proof.Machine.execLdi dr off s
  | .sti sr off => Sys2Proof.Machine.execSti sr off s
  | .jmp _ base _ => Sys2Proof.Machine.execJmp base s
  | .unimplemented1101 ign => Sys2Proof.Machine.execUnimplemented1101 ign s
  | .lea dr off => Sys2Proof.Machine.execLea dr off s
  | .trapGetc ign => Sys2Proof.Machine.execGetc ign s
  | .trapOut ign => Sys2Proof.Machine.execOut ign s
  | .trapPuts ign => Sys2Proof.Machine.execPuts ign s
  | .trapIn ign => Sys2Proof.Machine.execIn ign s
  | .trapPutsp ign => Sys2Proof.Machine.execPutsp ign s
  | .trapHalt ign => Sys2Proof.Machine.execHalt ign s
  | .trapUnknown ign vect => Sys2Proof.Machine.execTrapUnknown ign vect s

end Sys2Proof.Machine
end

