-- ==== Sys2Proof/Machine/Step.lean ====
section
/-! DEFINITION. One step: the cycle of 40_cycle.md rules R120 to R126, and how a word is placed for the next fetch. -/

namespace Sys2Proof.Machine

/-- `step()`: while `run` is Running, one cycle, which fetches, increments the PC, decodes and executes (rules R120 to
R123); in a terminal state no cycle is enabled and nothing changes (rule R125).  A cycle whose GETC or IN must wait is
one move of the input source and no move of the core (rule R128). -/
def step (s : State) : Host.Outcome State Fault Refusal :=
  match s.run with
  | .running => exec (decodeWord s.fetchWord) s.advancePc
  | .halted => .next s
  | .fatal _ => .next s

/-- The state with an instruction of the opcode table at the PC and the machine running, as after `load` of that one
word at the PC (70_reset_and_hazards.md rule R295). -/
def State.withFetchWord (s : State) (nbits w : Nat) : State :=
  (s.writeCell s.pc (BitVec.ofNat 16 (w % 2 ^ nbits))).withRun .running

end Sys2Proof.Machine
end

