-- ==== Sys2Proof/Machine/HostInterface.lean ====
section
/-! DEFINITION. The control interface: `load`, `step`, `run` and the read accessors.  The host acts only between steps,
and reset and `load` are its only writes (10_state.md rules R34 and R35). -/

namespace Sys2Proof.Machine

/-! ## Loading -/

/-- The words of an image into consecutive cells from `origin` on, wrapping at the top (70_reset_and_hazards.md
rule R295). -/
def State.storeWords (s : State) : List Word → Word → State
  | [], _ => s
  | w :: ws, origin => (s.writeCell origin w).storeWords ws (origin + 1#16)

/-- `load(words, origin)` (rule R295).  An image of more than 65536 words is refused by the interface (`none`) and
changes nothing. -/
def State.load (s : State) (words : List Word) (origin : Word) : Option State :=
  if words.length ≤ 65536 then some (((s.storeWords words origin).withPc origin).withRun .running) else none

/-! ## Running -/

/-- What a `step()` waits for: before a GETC or IN the source moves until it has a byte or has reported failure, and
nothing else changes; `none` if it never does (rules R126 and R128; assumption log 9). -/
def State.awaitInput (s : State) : Option State :=
  if s.run = .running ∧ readsInput (decodeWord s.fetchWord) = true then s.input.await.map s.withInput else some s

/-- `step()` as the host calls it: the state after exactly one cycle and the outcome it returns, the value of `run`.  It
does not return while a GETC or IN waits (40_cycle.md rule R126); `none` when it never returns, because the source
never answers or because the cycle never completes (44_trap.md rule R220). -/
def State.hostStep (s : State) : Option (State × Run) :=
  match s.awaitInput with
  | none => none
  | some u =>
    match step u with
    | .next t => some (t, t.run)
    | .fault _ => none
    | .refused _ => none

/-- What a bounded `run()` comes to. -/
inductive RunResult where
  /-- `run()` returns: the outcome is `s.run` and the final state is `s` (rule R129). -/
  | returned (s : State)
  /-- Still Running when the executor's own bound is used up, which is no state of the hardware (rule R127). -/
  | unfinished (s : State)
  /-- A cycle of the run never completes (44_trap.md rule R220). -/
  | hung (r : Fault)
  /-- An instruction has no meaning; no arm of `exec` is of this kind. -/
  | refused (r : Refusal)
  deriving DecidableEq, Repr

/-- `run()`: steps while `run` is Running, at most `fuel` of them, a held one among them (rules R127 and R128). -/
def runCycles : Nat → State → RunResult
  | 0, s => if s.run = .running then .unfinished s else .returned s
  | fuel + 1, s =>
    if s.run = .running then
      match step s with
      | .next t => runCycles fuel t
      | .fault r => .hung r
      | .refused r => .refused r
    else .returned s

/-! ## Reading -/

/-- What the host may read between steps (rule R35). -/
structure HostView where
  regs : List Word
  pc : Word
  cond : Cond
  run : Run
  deriving DecidableEq, Repr

/-- The read accessors for the registers and the control state; `State.readCell` is the one for memory (rule R35). -/
def State.hostView (s : State) : HostView where
  regs := s.regs.toList
  pc := s.pc
  cond := s.cond
  run := s.run

/-- The bytes the outside has received, the flushes dropped (10_state.md rule R33, decision D22). -/
def State.outputBytes (s : State) : List Byte :=
  s.output.filterMap (fun e => match e with | .byte b => some b | .flush => none)

end Sys2Proof.Machine
end

