-- ==== Sys2Proof/Safety.lean ====
section
/-! DEFINITION. The terms in which claims are made: `+16` on integers, what a step keeps, which element an instruction's
rule names, and the invariant of the machine. -/

namespace Sys2Proof.Machine

/-! ## The spec's own arithmetic -/

/-- `a +16 k = (a + k) mod 65536` (00_scope.md rule R8), on integers, so that it shares nothing with the model's own
addition and sign extension. -/
def plus16 (a : Word) (k : Int) : Word := BitVec.ofInt 16 (a.toNat + k)

/-- COND as the sign of a value, read as two's-complement (10_state.md rules R28 and R29). -/
structure CondShows (v : Word) (c : Cond) : Prop where
  zero : c = .Z ↔ v.toNat = 0
  negative : c = .N ↔ 32768 ≤ v.toNat
  positive : c = .P ↔ 0 < v.toNat ∧ v.toNat < 32768

/-! ## What is kept -/

/-- Every general register outside `except` is unchanged. -/
def RegsKept (except : List RegIdx) (s t : State) : Prop := ∀ r, r ∉ except → t.readReg r = s.readReg r

/-- Every memory cell outside `except` reads as before. -/
def CellsKept (except : List Word) (s t : State) : Prop := ∀ a, a ∉ except → t.readCell a = s.readCell a

/-- Nothing is read from the source and nothing is asked of the sink. -/
structure StreamsKept (s t : State) : Prop where
  input : t.input = s.input
  output : t.output = s.output
  sinkAnswers : t.sinkAnswers = s.sinkAnswers

/-! ## The effects the instruction rules have in common -/

/-- Register `dr` holds `v`, COND shows its sign, and everything else is as before (ADD, AND, NOT, LD, LDI, LDR, LEA). -/
structure DestWritten (dr : RegIdx) (v : Word) (s t : State) : Prop where
  value : t.readReg dr = v
  cond : CondShows v t.cond
  regs : RegsKept [dr] s t
  cells : CellsKept [] s t
  pc : t.pc = s.pc
  run : t.run = s.run
  streams : StreamsKept s t
  io : t.io = s.io

/-- Cell `a` holds `v` and everything else is as before (ST, STI, STR). -/
structure CellStored (a v : Word) (s t : State) : Prop where
  value : t.readCell a = v
  cells : CellsKept [a] s t
  regs : RegsKept [] s t
  cond : t.cond = s.cond
  pc : t.pc = s.pc
  run : t.run = s.run
  streams : StreamsKept s t
  io : t.io = s.io

/-- The PC holds `target`; no register outside `links` and nothing else has changed (BR, JMP, JSR, JSRR). -/
structure ControlAt (target : Word) (links : List RegIdx) (s t : State) : Prop where
  pc : t.pc = target
  regs : RegsKept links s t
  cells : CellsKept [] s t
  cond : t.cond = s.cond
  run : t.run = s.run
  streams : StreamsKept s t
  io : t.io = s.io

/-- What every trap service and every fatal error keeps: PC, COND, memory, the parameters, and every register outside
`results` (44_trap.md rule R211; 60_exceptions.md rule R253). -/
structure ServiceKept (results : List RegIdx) (s t : State) : Prop where
  regs : RegsKept results s t
  cells : CellsKept [] s t
  pc : t.pc = s.pc
  cond : t.cond = s.cond
  io : t.io = s.io

/-! ## What an instruction's rule names -/

/-- The destination register of the handlers that define one: ADD, AND, NOT, LD, LDI, LDR, LEA (rule R29). -/
def destReg : Instr → Option RegIdx
  | .addReg dr _ _ _ | .addImm dr _ _ | .andReg dr _ _ _ | .andImm dr _ _ | .not dr _ _ | .ld dr _ | .ldi dr _
  | .ldr dr _ _ | .lea dr _ => some dr
  | .br _ _ _ _ | .st _ _ | .jsr _ | .jsrr _ _ _ | .str _ _ _ | .unimplemented1000 _ | .sti _ _ | .jmp _ _ _
  | .unimplemented1101 _ | .trapGetc _ | .trapOut _ | .trapPuts _ | .trapIn _ | .trapPutsp _ | .trapHalt _
  | .trapUnknown _ _ => none

/-- The general registers an instruction may write: its DR, R7 for JSR and JSRR, R0 for GETC and IN (rule R20). -/
def writtenRegs : Instr → List RegIdx
  | .addReg dr _ _ _ | .addImm dr _ _ | .andReg dr _ _ _ | .andImm dr _ _ | .not dr _ _ | .ld dr _ | .ldi dr _
  | .ldr dr _ _ | .lea dr _ => [dr]
  | .jsr _ | .jsrr _ _ _ => [regR7]
  | .trapGetc _ | .trapIn _ => [regR0]
  | .br _ _ _ _ | .st _ _ | .str _ _ _ | .unimplemented1000 _ | .sti _ _ | .jmp _ _ _ | .unimplemented1101 _
  | .trapOut _ | .trapPuts _ | .trapPutsp _ | .trapHalt _ | .trapUnknown _ _ => []

/-- The cell a store writes, by the address functions of Machine/Operands.lean, in the state after the fetch; no other
instruction writes memory (20_memory.md rule R53). -/
def storedCells (i : Instr) (s : State) : List Word :=
  match i with
  | .st _ off => [s.pcRelative off]
  | .sti _ off => [s.indirect off]
  | .str _ base off => [s.basePlus base off]
  | .br _ _ _ _ | .addReg _ _ _ _ | .addImm _ _ _ | .ld _ _ | .jsr _ | .jsrr _ _ _ | .andReg _ _ _ _ | .andImm _ _ _
  | .ldr _ _ _ | .unimplemented1000 _ | .not _ _ _ | .ldi _ _ | .jmp _ _ _ | .unimplemented1101 _ | .lea _ _
  | .trapGetc _ | .trapOut _ | .trapPuts _ | .trapIn _ | .trapPutsp _ | .trapHalt _ | .trapUnknown _ _ => []

/-- The control-transfer handlers, the only ones that write the PC after the fetch (10_state.md rule R26). -/
def transfersControl : Instr → Bool
  | .br _ _ _ _ | .jmp _ _ _ | .jsr _ | .jsrr _ _ _ => true
  | .addReg _ _ _ _ | .addImm _ _ _ | .ld _ _ | .st _ _ | .andReg _ _ _ _ | .andImm _ _ _ | .ldr _ _ _ | .str _ _ _
  | .unimplemented1000 _ | .not _ _ _ | .ldi _ _ | .sti _ _ | .unimplemented1101 _ | .lea _ _ | .trapGetc _
  | .trapOut _ | .trapPuts _ | .trapIn _ | .trapPutsp _ | .trapHalt _ | .trapUnknown _ _ => false

/-- The services that write to the output sink or flush it. -/
def writesSink : Instr → Bool
  | .trapOut _ | .trapPuts _ | .trapIn _ | .trapPutsp _ | .trapHalt _ => true
  | .br _ _ _ _ | .addReg _ _ _ _ | .addImm _ _ _ | .ld _ _ | .st _ _ | .jsr _ | .jsrr _ _ _ | .andReg _ _ _ _
  | .andImm _ _ _ | .ldr _ _ _ | .str _ _ _ | .unimplemented1000 _ | .not _ _ _ | .ldi _ _ | .sti _ _ | .jmp _ _ _
  | .unimplemented1101 _ | .lea _ _ | .trapGetc _ | .trapUnknown _ _ => false

/-- The services that scan a string in memory. -/
def scansString : Instr → Bool
  | .trapPuts _ | .trapPutsp _ => true
  | .br _ _ _ _ | .addReg _ _ _ _ | .addImm _ _ _ | .ld _ _ | .st _ _ | .jsr _ | .jsrr _ _ _ | .andReg _ _ _ _
  | .andImm _ _ _ | .ldr _ _ _ | .str _ _ _ | .unimplemented1000 _ | .not _ _ _ | .ldi _ _ | .sti _ _ | .jmp _ _ _
  | .unimplemented1101 _ | .lea _ _ | .trapGetc _ | .trapOut _ | .trapIn _ | .trapHalt _ | .trapUnknown _ _ => false

/-- The cycle of `i` has to wait: it reads the input source, and the source has nothing yet and has not ended
(40_cycle.md rule R128). -/
def mustWait (i : Instr) (s : State) : Prop := readsInput i = true ∧ ∃ rest, s.input.answer = .notYet rest

/-! ## The word a fatal error records -/

/-- The same cause with another instruction word in its diagnostic. -/
def FatalCause.withWord (ir : Word) : FatalCause → FatalCause
  | .unknownOpcode d => .unknownOpcode { d with ir := ir }
  | .unknownTrapVector d => .unknownTrapVector { d with ir := ir }
  | .inputFailed d => .inputFailed { d with ir := ir }
  | .outputFailed d => .outputFailed { d with ir := ir }
  | .internalInvariant => .internalInvariant

/-- The same outcome with another instruction word in its diagnostic, if it has one. -/
def Run.withWord (ir : Word) : Run → Run
  | .running => .running
  | .halted => .halted
  | .fatal c => .fatal (c.withWord ir)

/-! ## The invariant -/

/-- The diagnostic names the offending instruction and its address: `a = pc - 1`, and the word still stands there
(60_exceptions.md rule R253). -/
structure Diagnostic.Recorded (d : Diagnostic) (s : State) : Prop where
  addr : d.addr = s.fetchAddr
  word : s.readCell d.addr = d.ir

/-- A fatal cause that the table of 60_exceptions.md rule R251 allows, with the information it records.  InternalInvariant
is raised by nothing (rule R256). -/
def FatalCause.Legal (s : State) : FatalCause → Prop
  | .unknownOpcode d =>
    d.Recorded s ∧ ((decodeWord d.ir).opcode = .none1000 ∨ (decodeWord d.ir).opcode = .none1101)
  | .unknownTrapVector d => d.Recorded s ∧ ∃ ign v, decodeWord d.ir = .trapUnknown ign v
  | .inputFailed d => d.Recorded s ∧ readsInput (decodeWord d.ir) = true
  | .outputFailed d => d.Recorded s ∧ (decodeWord d.ir).opcode = .trap ∧ s.io.sinkCanFail = true
  | .internalInvariant => False

/-- What holds between any two steps. -/
structure State.Inv (s : State) : Prop where
  /-- Memory is in its canonical form. -/
  memWf : Memory.wf s.mem
  /-- A fatal outcome is one of the table, with the offending instruction and its address. -/
  fatalLegal : ∀ c, s.run = .fatal c → c.Legal s
  /-- Nothing is left in the buffer of a sink that never fails (10_state.md rule R33). -/
  flushed : s.io.sinkCanFail = false → ∀ b, s.output.getLast? ≠ some (.byte b)

end Sys2Proof.Machine
end

