-- ==== Sys2Proof/Certificates/Slice0/Obligations.lean ====
section
/-! DEFINITION. The statements for the provers.  Inside them the PC is the post-fetch PC wherever `exec` stands, since
`exec` is applied to the state after the fetch (40_cycle.md rules R121 and R123).  The opcode, field and vector numbers
of every word are those of the cited rules, which the spec adopted by decisions D2 to D5 (log 1). -/

open Sys2Proof Sys2Proof.Machine

/-! ## Encoding -/

/-- Decode and encode agree, for every instruction and every value of every field, on the word and on its bytes.  The
numbers are the spec's adopted LC-3 values (decisions D2 to D5, log 1) and the byte order is the model's (log 2). -/
def Obligations.DecodeEncodeRoundTrip : Prop :=
  ∀ i : Instr, i.wf = true →
    decodeWord (encode i) = i ∧ ∀ rest : List Byte, decode (encodeBytes i ++ rest) = .ok (i, rest)

/-- Every one of the 65536 words is one well-formed instruction, and encoding gives the word back.  That no word is
rejected is rules R89 and R122 over the formats of 30_encoding.md section 2; that no bit is dropped is the model's
choice, which keeps the ignored bits in the instruction (DESIGN CHOICE, log 10). -/
def Obligations.EveryWordIsOneInstruction : Prop :=
  ∀ ir : Word, (decodeWord ir).wf = true ∧ encode (decodeWord ir) = ir

/-- Words written out from the formats of rule R83, one or more for each family (decisions D2 to D5, log 1). -/
def Obligations.SpecWordsDecode : Prop :=
  decodeWord 0b0001_010_000_0_00_001#16 = .addReg 2#3 0#3 0#2 1#3 ∧
  decodeWord 0b0001_001_001_1_11111#16 = .addImm 1#3 1#3 0b11111#5 ∧
  decodeWord 0b0101_011_001_0_00_010#16 = .andReg 3#3 1#3 0#2 2#3 ∧
  decodeWord 0b1001_100_101_111111#16 = .not 4#3 5#3 0b111111#6 ∧
  decodeWord 0b0000_0_1_0_000000101#16 = .br false true false 5#9 ∧
  decodeWord 0b1100_000_011_000000#16 = .jmp 0#3 3#3 0#6 ∧
  decodeWord 0b0100_1_11111111101#16 = .jsr 0x7FD#11 ∧
  decodeWord 0b0100_0_00_100_000000#16 = .jsrr 0#2 4#3 0#6 ∧
  decodeWord 0b0010_001_000000010#16 = .ld 1#3 2#9 ∧
  decodeWord 0b1010_001_000100100#16 = .ldi 1#3 0x24#9 ∧
  decodeWord 0b0110_010_001_111111#16 = .ldr 2#3 1#3 0x3F#6 ∧
  decodeWord 0b1110_000_111111110#16 = .lea 0#3 0x1FE#9 ∧
  decodeWord 0b0011_011_111111111#16 = .st 3#3 0x1FF#9 ∧
  decodeWord 0b1011_010_000000100#16 = .sti 2#3 4#9 ∧
  decodeWord 0b0111_000_110_011111#16 = .str 0#3 6#3 0x1F#6 ∧
  decodeWord 0b1000_111100100101#16 = .unimplemented1000 0xF25#12 ∧
  decodeWord 0b1101_000100100011#16 = .unimplemented1101 0x123#12 ∧
  decodeWord 0b1111_0000_00100010#16 = .trapPuts 0#4 ∧
  decodeWord 0b1111_0001_00100101#16 = .trapHalt 1#4 ∧
  decodeWord 0b1111_0000_00100110#16 = .trapUnknown 0#4 0x26#8

/-- The words without a handler are 0x8000 to 0x8FFF and 0xD000 to 0xDFFF and no others (rules R87 and R252; which two
opcode values these are is decision D11, log 1). -/
def Obligations.UnknownOpcodeWordRanges : Prop :=
  ∀ ir : Word,
    (((decodeWord ir).opcode = .none1000 ∨ (decodeWord ir).opcode = .none1101) ↔
      (0x8000 ≤ ir.toNat ∧ ir.toNat ≤ 0x8FFF) ∨ (0xD000 ≤ ir.toNat ∧ ir.toNat ≤ 0xDFFF))

/-- TRAP dispatches on the low byte alone: 0x20 to 0x25 are the six services, and each of the other 250 vectors is the
unknown vector, whatever `ir[11:8]` is (rules R210 and R88; the numbers are decision D5, log 1). -/
def Obligations.TrapVectorDispatch : Prop :=
  ∀ (ign : BitVec 4) (v : Vect),
    (v.toNat = 0x20 → decodeWord (0xF#4 ++ ign ++ v) = .trapGetc ign) ∧
    (v.toNat = 0x21 → decodeWord (0xF#4 ++ ign ++ v) = .trapOut ign) ∧
    (v.toNat = 0x22 → decodeWord (0xF#4 ++ ign ++ v) = .trapPuts ign) ∧
    (v.toNat = 0x23 → decodeWord (0xF#4 ++ ign ++ v) = .trapIn ign) ∧
    (v.toNat = 0x24 → decodeWord (0xF#4 ++ ign ++ v) = .trapPutsp ign) ∧
    (v.toNat = 0x25 → decodeWord (0xF#4 ++ ign ++ v) = .trapHalt ign) ∧
    (v.toNat < 0x20 ∨ 0x25 < v.toNat → decodeWord (0xF#4 ++ ign ++ v) = .trapUnknown ign v)

/-- Ignored bits change nothing that an instruction does: two words that differ in them alone have one meaning.  Where a
TRAP or an opcode without a handler ends in a fatal error the next state is the same but for the recorded word, and
where a service hangs it hangs for all of them (rules R86, R241 and R242; decision D10, log 10). -/
def Obligations.IgnoredBitsChangeNothing : Prop :=
  (∀ (dr sr1 sr2 : RegIdx) (g g' : BitVec 2) (s : State),
    exec (.addReg dr sr1 g sr2) s = exec (.addReg dr sr1 g' sr2) s ∧
    exec (.andReg dr sr1 g sr2) s = exec (.andReg dr sr1 g' sr2) s) ∧
  (∀ (dr sr : RegIdx) (g g' : BitVec 6) (s : State), exec (.not dr sr g) s = exec (.not dr sr g') s) ∧
  (∀ (base : RegIdx) (h h' : BitVec 3) (g g' : BitVec 6) (s : State),
    exec (.jmp h base g) s = exec (.jmp h' base g') s) ∧
  (∀ (base : RegIdx) (h h' : BitVec 2) (g g' : BitVec 6) (s : State),
    exec (.jsrr h base g) s = exec (.jsrr h' base g') s) ∧
  (∀ (f : BitVec 4 → Instr) (g g' : BitVec 4) (s : State),
    (f ∈ [Instr.trapGetc, Instr.trapOut, Instr.trapPuts, Instr.trapIn, Instr.trapPutsp, Instr.trapHalt] ∨
      ∃ v, f = fun ign => Instr.trapUnknown ign v) → (∀ c, s.run ≠ .fatal c) →
    (∀ t, exec (f g) s = .next t → exec (f g') s = .next (t.withRun (t.run.withWord (encode (f g'))))) ∧
    (∀ r, exec (f g) s = .fault r → exec (f g') s = .fault r)) ∧
  (∀ (f : BitVec 12 → Instr) (g g' : BitVec 12) (s t : State), f ∈ [Instr.unimplemented1000, Instr.unimplemented1101] →
    exec (f g) s = .next t → exec (f g') s = .next (t.withRun (t.run.withWord (encode (f g')))))

/-! ## Values -/

/-- Sign extension at the four widths the decoder uses, and the zero extension of a byte (rule R9). -/
def Obligations.ExtensionByWidth : Prop :=
  (∀ v : BitVec 5, (sext v).toNat = if v.toNat < 2 ^ 4 then v.toNat else v.toNat + (65536 - 2 ^ 5)) ∧
  (∀ v : BitVec 6, (sext v).toNat = if v.toNat < 2 ^ 5 then v.toNat else v.toNat + (65536 - 2 ^ 6)) ∧
  (∀ v : BitVec 9, (sext v).toNat = if v.toNat < 2 ^ 8 then v.toNat else v.toNat + (65536 - 2 ^ 9)) ∧
  (∀ v : BitVec 11, (sext v).toNat = if v.toNat < 2 ^ 10 then v.toNat else v.toNat + (65536 - 2 ^ 11)) ∧
  (∀ b : Byte, (zextByte b).toNat = b.toNat)

/-! ## Operate instructions -/

/-- ADD, register form: the encoding, the wrapped sum, COND from it, and nothing else (rule R141). -/
def Obligations.AddRegisterForm : Prop :=
  (∀ ir : Word, ir.extractLsb' 12 4 = 0b0001#4 → ir.getLsbD 5 = false →
    decodeWord ir = .addReg (ir.extractLsb' 9 3) (ir.extractLsb' 6 3) (ir.extractLsb' 3 2) (ir.extractLsb' 0 3)) ∧
  ∀ (dr sr1 sr2 : RegIdx) (ign : BitVec 2) (s : State), ∃ t, exec (.addReg dr sr1 ign sr2) s = .next t ∧
    DestWritten dr (plus16 (s.readReg sr1) (s.readReg sr2).toNat) s t

/-- ADD, immediate form: the encoding, the wrapped sum with the signed immediate, COND from it, and nothing else
(rule R142). -/
def Obligations.AddImmediateForm : Prop :=
  (∀ ir : Word, ir.extractLsb' 12 4 = 0b0001#4 → ir.getLsbD 5 = true →
    decodeWord ir = .addImm (ir.extractLsb' 9 3) (ir.extractLsb' 6 3) (ir.extractLsb' 0 5)) ∧
  ∀ (dr sr1 : RegIdx) (imm : BitVec 5) (s : State), ∃ t, exec (.addImm dr sr1 imm) s = .next t ∧
    DestWritten dr (plus16 (s.readReg sr1) imm.toInt) s t

/-- AND, register form: the encoding, each bit of the result, COND from it, and nothing else (rule R143). -/
def Obligations.AndRegisterForm : Prop :=
  (∀ ir : Word, ir.extractLsb' 12 4 = 0b0101#4 → ir.getLsbD 5 = false →
    decodeWord ir = .andReg (ir.extractLsb' 9 3) (ir.extractLsb' 6 3) (ir.extractLsb' 3 2) (ir.extractLsb' 0 3)) ∧
  ∀ (dr sr1 sr2 : RegIdx) (ign : BitVec 2) (s : State), ∃ t v, exec (.andReg dr sr1 ign sr2) s = .next t ∧
    (∀ k < 16, v.getLsbD k = ((s.readReg sr1).getLsbD k && (s.readReg sr2).getLsbD k)) ∧ DestWritten dr v s t

/-- AND, immediate form: the encoding, each bit of the result (the immediate is sign-extended before the AND, so bit 4
stands for every higher bit of it), COND from it, and nothing else (rule R144). -/
def Obligations.AndImmediateForm : Prop :=
  (∀ ir : Word, ir.extractLsb' 12 4 = 0b0101#4 → ir.getLsbD 5 = true →
    decodeWord ir = .andImm (ir.extractLsb' 9 3) (ir.extractLsb' 6 3) (ir.extractLsb' 0 5)) ∧
  ∀ (dr sr1 : RegIdx) (imm : BitVec 5) (s : State), ∃ t v, exec (.andImm dr sr1 imm) s = .next t ∧
    (∀ k < 16, v.getLsbD k = ((s.readReg sr1).getLsbD k && imm.getLsbD (min k 4))) ∧ DestWritten dr v s t

/-- NOT: the encoding, the value 65535 minus the source, COND from it, and nothing else (rule R145). -/
def Obligations.NotComplements : Prop :=
  (∀ ir : Word, ir.extractLsb' 12 4 = 0b1001#4 →
    decodeWord ir = .not (ir.extractLsb' 9 3) (ir.extractLsb' 6 3) (ir.extractLsb' 0 6)) ∧
  ∀ (dr sr : RegIdx) (ign : BitVec 6) (s : State), ∃ t v, exec (.not dr sr ign) s = .next t ∧
    v.toNat = 65535 - (s.readReg sr).toNat ∧ DestWritten dr v s t

/-- NOT is involutive: NOT into a register and NOT of that register in place give the source back, with COND showing it
(rule R140, "NOT(NOT(x)) == x"). -/
def Obligations.NotTwiceRestores : Prop :=
  ∀ (dr sr : RegIdx) (g g' : BitVec 6) (s : State), ∃ t u, exec (.not dr sr g) s = .next t ∧
    exec (.not dr dr g') t = .next u ∧ DestWritten dr (s.readReg sr) s u

/-! ## Control transfer -/

/-- BR: the encoding; taken iff the mask bit of the current flag is 1, which is `(mask & COND) != 0` for the 3-bit form;
taken it goes to the post-fetch PC plus the signed offset, else it has no effect (rule R161). -/
def Obligations.BranchConditional : Prop :=
  (∀ ir : Word, ir.extractLsb' 12 4 = 0b0000#4 →
    decodeWord ir = .br (ir.getLsbD 11) (ir.getLsbD 10) (ir.getLsbD 9) (ir.extractLsb' 0 9)) ∧
  (∀ (n z p : Bool) (c : Cond), branchTaken n z p c = true ↔
    (BitVec.ofBool n ++ BitVec.ofBool z ++ BitVec.ofBool p : BitVec 3) &&& condBits c ≠ 0#3) ∧
  ∀ (n z p : Bool) (off : BitVec 9) (s : State), ∃ t, exec (.br n z p off) s = .next t ∧
    (((n = true ∧ s.cond = .N) ∨ (z = true ∧ s.cond = .Z) ∨ (p = true ∧ s.cond = .P)) →
      ControlAt (plus16 s.pc off.toInt) [] s t) ∧
    (¬((n = true ∧ s.cond = .N) ∨ (z = true ∧ s.cond = .Z) ∨ (p = true ∧ s.cond = .P)) → ControlAt s.pc [] s t)

/-- JMP and RET: the encoding; the PC takes the whole base register and nothing else changes (rule R162). -/
def Obligations.JumpThroughRegister : Prop :=
  (∀ ir : Word, ir.extractLsb' 12 4 = 0b1100#4 →
    decodeWord ir = .jmp (ir.extractLsb' 9 3) (ir.extractLsb' 6 3) (ir.extractLsb' 0 6)) ∧
  ∀ (ignHi : BitVec 3) (base : RegIdx) (ignLo : BitVec 6) (s : State), ∃ t, exec (.jmp ignHi base ignLo) s = .next t ∧
    ControlAt (s.readReg base) [] s t

/-- JSR: the encoding; R7 holds the post-fetch PC, the PC takes it plus the signed offset, nothing else changes
(rule R163). -/
def Obligations.CallPcRelative : Prop :=
  (∀ ir : Word, ir.extractLsb' 12 4 = 0b0100#4 → ir.getLsbD 11 = true → decodeWord ir = .jsr (ir.extractLsb' 0 11)) ∧
  ∀ (off : BitVec 11) (s : State), ∃ t, exec (.jsr off) s = .next t ∧
    t.readReg 7#3 = s.pc ∧ ControlAt (plus16 s.pc off.toInt) [7#3] s t

/-- JSRR: R7 holds the post-fetch PC and the PC takes the base register; with R7 as the base it continues at the
post-fetch PC, since R7 is written before the base is read, which is the spec's decision D16 (rule R164, log 12). -/
def Obligations.CallThroughRegister : Prop :=
  (∀ ir : Word, ir.extractLsb' 12 4 = 0b0100#4 → ir.getLsbD 11 = false →
    decodeWord ir = .jsrr (ir.extractLsb' 9 2) (ir.extractLsb' 6 3) (ir.extractLsb' 0 6)) ∧
  ∀ (ignHi : BitVec 2) (base : RegIdx) (ignLo : BitVec 6) (s : State), ∃ t, exec (.jsrr ignHi base ignLo) s = .next t ∧
    t.readReg 7#3 = s.pc ∧ ControlAt (if base = 7#3 then s.pc else s.readReg base) [7#3] s t

/-! ## Loads, stores and LEA -/

/-- LD: the encoding; DR holds the cell at the post-fetch PC plus the signed offset, COND shows it (rule R181). -/
def Obligations.LoadPcRelative : Prop :=
  (∀ ir : Word, ir.extractLsb' 12 4 = 0b0010#4 → decodeWord ir = .ld (ir.extractLsb' 9 3) (ir.extractLsb' 0 9)) ∧
  ∀ (dr : RegIdx) (off : BitVec 9) (s : State), ∃ t, exec (.ld dr off) s = .next t ∧
    DestWritten dr (s.readCell (plus16 s.pc off.toInt)) s t

/-- LDI: the encoding; DR holds the cell whose address stands in the cell at the post-fetch PC plus the signed offset,
COND shows the data (rule R182). -/
def Obligations.LoadIndirect : Prop :=
  (∀ ir : Word, ir.extractLsb' 12 4 = 0b1010#4 → decodeWord ir = .ldi (ir.extractLsb' 9 3) (ir.extractLsb' 0 9)) ∧
  ∀ (dr : RegIdx) (off : BitVec 9) (s : State), ∃ t, exec (.ldi dr off) s = .next t ∧
    DestWritten dr (s.readCell (s.readCell (plus16 s.pc off.toInt))) s t

/-- LDR: the encoding; DR holds the cell at the base register plus the signed offset, COND shows it; DR may be the base
(rule R183). -/
def Obligations.LoadBaseOffset : Prop :=
  (∀ ir : Word, ir.extractLsb' 12 4 = 0b0110#4 →
    decodeWord ir = .ldr (ir.extractLsb' 9 3) (ir.extractLsb' 6 3) (ir.extractLsb' 0 6)) ∧
  ∀ (dr base : RegIdx) (off : BitVec 6) (s : State), ∃ t, exec (.ldr dr base off) s = .next t ∧
    DestWritten dr (s.readCell (plus16 (s.readReg base) off.toInt)) s t

/-- LEA: the encoding; DR holds the address itself, and COND shows it (rule R184). -/
def Obligations.LoadEffectiveAddress : Prop :=
  (∀ ir : Word, ir.extractLsb' 12 4 = 0b1110#4 → decodeWord ir = .lea (ir.extractLsb' 9 3) (ir.extractLsb' 0 9)) ∧
  ∀ (dr : RegIdx) (off : BitVec 9) (s : State), ∃ t, exec (.lea dr off) s = .next t ∧
    DestWritten dr (plus16 s.pc off.toInt) s t

/-- ST: the encoding; the cell at the post-fetch PC plus the signed offset holds SR and nothing else changes
(rule R185). -/
def Obligations.StorePcRelative : Prop :=
  (∀ ir : Word, ir.extractLsb' 12 4 = 0b0011#4 → decodeWord ir = .st (ir.extractLsb' 9 3) (ir.extractLsb' 0 9)) ∧
  ∀ (sr : RegIdx) (off : BitVec 9) (s : State), ∃ t, exec (.st sr off) s = .next t ∧
    s.pcRelative off = plus16 s.pc off.toInt ∧ CellStored (s.pcRelative off) (s.readReg sr) s t

/-- STI: the encoding; the cell whose address stands in the cell at the post-fetch PC plus the signed offset holds SR and
nothing else changes (rule R186). -/
def Obligations.StoreIndirect : Prop :=
  (∀ ir : Word, ir.extractLsb' 12 4 = 0b1011#4 → decodeWord ir = .sti (ir.extractLsb' 9 3) (ir.extractLsb' 0 9)) ∧
  ∀ (sr : RegIdx) (off : BitVec 9) (s : State), ∃ t, exec (.sti sr off) s = .next t ∧
    s.indirect off = s.readCell (plus16 s.pc off.toInt) ∧ CellStored (s.indirect off) (s.readReg sr) s t

/-- STR: the encoding; the cell at the base register plus the signed offset holds SR, which may be the base, and nothing
else changes (rule R187). -/
def Obligations.StoreBaseOffset : Prop :=
  (∀ ir : Word, ir.extractLsb' 12 4 = 0b0111#4 →
    decodeWord ir = .str (ir.extractLsb' 9 3) (ir.extractLsb' 6 3) (ir.extractLsb' 0 6)) ∧
  ∀ (sr base : RegIdx) (off : BitVec 6) (s : State), ∃ t, exec (.str sr base off) s = .next t ∧
    s.basePlus base off = plus16 (s.readReg base) off.toInt ∧ CellStored (s.basePlus base off) (s.readReg sr) s t

/-- A store is seen by the very next fetch: the word that `ST` put at the post-fetch PC is the one the next step
executes (rules R63 and R301). -/
def Obligations.StoreSeenByNextFetch : Prop :=
  ∀ (sr : RegIdx) (s : State), s.run = .running → ∃ t, exec (.st sr 0#9) s = .next t ∧
    step t = exec (decodeWord (s.readReg sr)) (t.withPc (plus16 s.pc 1))

/-! ## Fatal decode errors -/

/-- The two opcode values without a handler end the run with the fatal decode error that records the word and its
address, and change nothing else (rules R241, R242 and R253; which values they are and that the PC keeps its increment
are decisions D11 and D12, log 1 and 11). -/
def Obligations.UnimplementedOpcodesAreFatal : Prop :=
  ∀ (g : BitVec 12) (s : State),
    (∃ t, exec (.unimplemented1000 g) s = .next t ∧ ServiceKept [] s t ∧ StreamsKept s t ∧
      t.run = .fatal (.unknownOpcode ⟨0x8#4 ++ g, plus16 s.pc (-1)⟩)) ∧
    (∃ t, exec (.unimplemented1101 g) s = .next t ∧ ServiceKept [] s t ∧ StreamsKept s t ∧
      t.run = .fatal (.unknownOpcode ⟨0xD#4 ++ g, plus16 s.pc (-1)⟩))

/-- An unknown vector ends the run with the fatal decode error: no register, cell or stream is touched (rule R219).
That the PC keeps the fetch increment is decision D12 (log 11). -/
def Obligations.UnknownTrapVectorIsFatal : Prop :=
  ∀ (ign : BitVec 4) (v : Vect) (s : State), (v.toNat < 0x20 ∨ 0x25 < v.toNat) →
    ∃ t, exec (decodeWord (0xF#4 ++ ign ++ v)) s = .next t ∧
      exec (.trapUnknown ign v) s = .next t ∧ ServiceKept [] s t ∧ StreamsKept s t ∧
      t.run = .fatal (.unknownTrapVector ⟨0xF#4 ++ ign ++ v, plus16 s.pc (-1)⟩)

/-! ## Trap services -/

/-- What each form of the input source answers to `InByte()`: its next byte, an error, nothing yet, its end again and
again, nothing yet for ever, or the next byte of a source without end once its delay has passed (rule R32; the forms are
the model's, log 9). -/
def Obligations.InputSourceAnswers : Prop :=
  ∀ (b : Byte) (rest : InputSource) (k w : Nat),
    (InputSource.byte b rest).answer = .byte b rest ∧
    (InputSource.late rest).answer = .notYet rest ∧
    (InputSource.error rest).answer = .failed rest ∧
    InputSource.ended.answer = .failed .ended ∧
    InputSource.silent.answer = .notYet .silent ∧
    (InputSource.endless k w).answer =
      if w < endlessDelay k then .notYet (.endless k (w + 1)) else .byte (endlessByte k) (.endless (k + 1) 0)

/-- GETC with a byte at hand: R0 holds it, the source is what comes after it, COND and everything else is
kept and nothing is written.  That the high byte of R0 is zero is decision D14 (rule R212, log 13). -/
def Obligations.GetcReadsOneByte : Prop :=
  ∀ (ign : BitVec 4) (b : Byte) (rest : InputSource) (s : State), s.input.answer = .byte b rest →
    ∃ t, exec (.trapGetc ign) s = .next t ∧ (t.readReg 0#3).toNat = b.toNat ∧ t.input = rest ∧
      t.output = s.output ∧ t.sinkAnswers = s.sinkAnswers ∧ t.run = s.run ∧ ServiceKept [0#3] s t

/-- IN with a byte at hand and a sink that never fails: the prompt, one flush, then as GETC, without an echo.  Prompt
before flush before read, no echo and the zero high byte are decisions D15 and D14 (rule R215, log 7 and 13). -/
def Obligations.InPromptsThenReadsOneByte : Prop :=
  ∀ (ign : BitVec 4) (b : Byte) (rest : InputSource) (s : State), s.input.answer = .byte b rest →
    s.io.sinkCanFail = false →
    ∃ t, exec (.trapIn ign) s = .next t ∧ (t.readReg 0#3).toNat = b.toNat ∧ t.input = rest ∧
      t.output = s.output ++ s.io.inPrompt.map .byte ++ [.flush] ∧ t.sinkAnswers = s.sinkAnswers ∧ t.run = s.run ∧
      ServiceKept [0#3] s t

/-- End of input and an error of the source: GETC and IN (with a sink that never fails) end in the fatal I/O error, R0 is
not written; IN has written its prompt and flushed it, GETC nothing.  The cut is decision D21 (rules R217 and R253,
log 9 and 11). -/
def Obligations.InputFailureIsFatal : Prop :=
  ∀ (ign : BitVec 4) (rest : InputSource) (s : State), s.input.answer = .failed rest →
    (∃ t, exec (.trapGetc ign) s = .next t ∧ ServiceKept [] s t ∧ t.output = s.output ∧ t.input = rest ∧
      t.run = .fatal (.inputFailed ⟨0xF#4 ++ ign ++ 0x20#8, plus16 s.pc (-1)⟩)) ∧
    (s.io.sinkCanFail = false →
      ∃ t, exec (.trapIn ign) s = .next t ∧ ServiceKept [] s t ∧ t.input = rest ∧
        t.output = s.output ++ s.io.inPrompt.map .byte ++ [.flush] ∧
        t.run = .fatal (.inputFailed ⟨0xF#4 ++ ign ++ 0x23#8, plus16 s.pc (-1)⟩))

/-- A GETC or IN whose source has nothing yet and has not ended: no state of the core changes, the PC has not advanced
and no prompt is written; the source makes its move (rule R128; one atomic step is decision D30, log 9). -/
def Obligations.BlockedReadHoldsTheCore : Prop :=
  ∀ (s : State) (rest : InputSource), s.run = .running → readsInput (decodeWord s.fetchWord) = true →
    s.input.answer = .notYet rest → step s = .next (s.withInput rest)

/-- A source that never ends and one that blocks for ever.  From the first no cycle ends in InputFailed, every GETC and IN
with a sink that never fails returns with its next byte, and it stays without end.  With the second a GETC or IN holds
the core for ever, and neither `step()` nor `run()` returns (rules R32, R126 and R128; the forms of a source are the
model's and the bytes and delays are free values, log 9). -/
def Obligations.SourcesWithoutEnd : Prop :=
  (∀ (s t : State) (k w : Nat), s.run = .running → s.input = .endless k w → step s = .next t →
    (∃ k' w', t.input = .endless k' w') ∧ ∀ d, t.run ≠ .fatal (.inputFailed d)) ∧
  (∀ (s : State) (k w : Nat), s.run = .running → readsInput (decodeWord s.fetchWord) = true →
    s.input = .endless k w → s.io.sinkCanFail = false →
    ∃ t, s.hostStep = some (t, .running) ∧ (t.readReg 0#3).toNat = (endlessByte k).toNat ∧
      t.input = .endless (k + 1) 0) ∧
  (∀ s : State, s.run = .running → readsInput (decodeWord s.fetchWord) = true → s.input = .silent →
    step s = .next s ∧ s.hostStep = none ∧ ∀ fuel, runCycles fuel s = .unfinished s)

/-- OUT with a sink that never fails: the low byte of R0 and one flush reach the output, nothing else changes (rule
R213). -/
def Obligations.OutWritesLowByte : Prop :=
  ∀ (ign : BitVec 4) (s : State), s.io.sinkCanFail = false →
    ∃ t, exec (.trapOut ign) s = .next t ∧ ServiceKept [] s t ∧ t.input = s.input ∧ t.sinkAnswers = s.sinkAnswers ∧
      t.run = s.run ∧ t.output = s.output ++ [.byte ((s.readReg 0#3).setWidth 8), .flush]

/-- PUTS with a sink that never fails writes the low byte of every word from R0 up to the first zero word, address by
address, then one flush, and changes nothing else (rule R214).  That the address wraps is decision D17 (log 14). -/
def Obligations.PutsWritesTheString : Prop :=
  ∀ (ign : BitVec 4) (s : State) (ws : List Word), s.io.sinkCanFail = false → (∀ w ∈ ws, w ≠ 0#16) →
    (∀ k (h : k < ws.length), s.readCell (plus16 (s.readReg 0#3) k) = ws[k]) →
    s.readCell (plus16 (s.readReg 0#3) ws.length) = 0#16 →
    ∃ t, exec (.trapPuts ign) s = .next t ∧ ServiceKept [] s t ∧ t.input = s.input ∧ t.sinkAnswers = s.sinkAnswers ∧
      t.run = s.run ∧ t.output = s.output ++ ws.map (fun w : Word => SinkEvent.byte (w.setWidth 8)) ++ [.flush]

/-- PUTSP with a sink that never fails writes, of every word from R0 up to the first zero word, the low byte and then the
high byte unless it is zero; then one flush; nothing else changes.  That a zero low byte is written is decision D18 and
that the address wraps is decision D17 (rule R216, log 14). -/
def Obligations.PutspWritesThePackedString : Prop :=
  ∀ (ign : BitVec 4) (s : State) (ws : List Word), s.io.sinkCanFail = false → (∀ w ∈ ws, w ≠ 0#16) →
    (∀ k (h : k < ws.length), s.readCell (plus16 (s.readReg 0#3) k) = ws[k]) →
    s.readCell (plus16 (s.readReg 0#3) ws.length) = 0#16 →
    ∃ t, exec (.trapPutsp ign) s = .next t ∧ ServiceKept [] s t ∧ t.input = s.input ∧ t.sinkAnswers = s.sinkAnswers ∧
      t.run = s.run ∧
      t.output = s.output ++
        (ws.flatMap (fun w : Word => if w.toNat < 256 then [SinkEvent.byte (w.setWidth 8)]
          else [SinkEvent.byte (w.setWidth 8), SinkEvent.byte ((w >>> 8).setWidth 8)])) ++ [.flush]

/-- PUTS and PUTSP complete if and only if memory holds a zero word, with a sink that never fails; otherwise the cycle
never completes (rules R220 and R303; that the scan wraps and that a string without an end is a hang is decision D17,
log 14). -/
def Obligations.StringServicesCompleteIffZeroWord : Prop :=
  ∀ (ign : BitVec 4) (s : State), s.io.sinkCanFail = false →
    ((∃ t, exec (.trapPuts ign) s = .next t) ↔ ∃ a, s.readCell a = 0#16) ∧
    ((∃ t, exec (.trapPutsp ign) s = .next t) ↔ ∃ a, s.readCell a = 0#16) ∧
    (exec (.trapPuts ign) s = .fault .endlessString ↔ ∀ a, s.readCell a ≠ 0#16) ∧
    (exec (.trapPutsp ign) s = .fault .endlessString ↔ ∀ a, s.readCell a ≠ 0#16)

/-- HALT with a sink that never fails flushes and ends the run as Halted, and changes nothing else.  That it writes no
byte is decision D26 (rule R218, log 14). -/
def Obligations.HaltEndsTheRun : Prop :=
  ∀ (ign : BitVec 4) (s : State), s.io.sinkCanFail = false →
    ∃ t, exec (.trapHalt ign) s = .next t ∧ ServiceKept [] s t ∧ t.input = s.input ∧ t.sinkAnswers = s.sinkAnswers ∧
      t.run = .halted ∧ t.output = s.output ++ [.flush]

/-- A sink that fails at once cuts OUT, HALT, PUTS and PUTSP of any string, the empty one at its flush, and IN (with its
answer at hand, whatever it is) before anything is written or read: the fatal I/O error, Fatal and not Halted for HALT,
with R0, the input and all else kept.  The cut is decision D21 (rule R217, log 8 and 11). -/
def Obligations.OutputFailureAtOnceIsFatal : Prop :=
  ∀ (ign : BitVec 4) (s : State) (as : List SinkAnswer) (i : Instr), s.io.sinkCanFail = true →
    s.sinkAnswers = .fail :: as → ¬mustWait i s →
    i ∈ [.trapOut ign, .trapHalt ign, .trapIn ign, .trapPuts ign, .trapPutsp ign] →
    ∃ t, exec i s = .next t ∧ ServiceKept [] s t ∧ t.input = s.input ∧ t.output = s.output ∧ t.sinkAnswers = as ∧
      t.run = .fatal (.outputFailed ⟨encode i, plus16 s.pc (-1)⟩)

/-- A sink that fails after it has accepted `k` bytes of a string, `ws` its words: those bytes stay in the output and
nothing follows them, for PUTS and for PUTSP, where `k` may fall between the two bytes of a word.  With all the bytes of
a terminated string accepted it is the closing flush that fails.  The cut is decision D21 (rules R217 and R253, log 8 and
11); that the scan wraps and that a zero low byte is written are decisions D17 and D18 (log 14). -/
def Obligations.OutputFailureInsideAString : Prop :=
  ∀ (ign : BitVec 4) (s : State) (k : Nat) (as : List SinkAnswer) (ws : List Word), s.io.sinkCanFail = true →
    s.sinkAnswers = List.replicate k .ok ++ .fail :: as → (∀ w ∈ ws, w ≠ 0#16) →
    (∀ j (h : j < ws.length), s.readCell (plus16 (s.readReg 0#3) j) = ws[j]) →
    ∀ (i : Instr) (bytes : List SinkEvent),
      (i = .trapPuts ign ∧ bytes = ws.map (fun w : Word => SinkEvent.byte (w.setWidth 8)) ∨
        i = .trapPutsp ign ∧ bytes = ws.flatMap (fun w : Word => if w.toNat < 256 then [SinkEvent.byte (w.setWidth 8)]
          else [SinkEvent.byte (w.setWidth 8), SinkEvent.byte ((w >>> 8).setWidth 8)])) →
      (k < bytes.length ∨ k = bytes.length ∧ s.readCell (plus16 (s.readReg 0#3) ws.length) = 0#16) →
      ∃ t, exec i s = .next t ∧ ServiceKept [] s t ∧ t.input = s.input ∧ t.sinkAnswers = as ∧
        t.run = .fatal (.outputFailed ⟨encode i, plus16 s.pc (-1)⟩) ∧ t.output = s.output ++ bytes.take k

/-- OUT whose byte is accepted and whose closing flush fails: the byte stays, and the run ends in the fatal I/O error
(rules R213, R217 and R253; decision D21, log 8 and 11). -/
def Obligations.OutputFailureAtTheFlushOfOut : Prop :=
  ∀ (ign : BitVec 4) (s : State) (as : List SinkAnswer), s.io.sinkCanFail = true →
    s.sinkAnswers = .ok :: .fail :: as →
    ∃ t, exec (.trapOut ign) s = .next t ∧ ServiceKept [] s t ∧ t.input = s.input ∧ t.sinkAnswers = as ∧
      t.run = .fatal (.outputFailed ⟨0xF#4 ++ ign ++ 0x21#8, plus16 s.pc (-1)⟩) ∧
      t.output = s.output ++ [.byte ((s.readReg 0#3).setWidth 8)]

/-- IN whose sink fails after it has accepted `k` bytes of the prompt, or all of them and then the flush: those bytes
stay, nothing is read and R0 is not written, whatever the source would answer (rules R215, R217 and R258; decisions D15
and D21, log 7, 8 and 11). -/
def Obligations.OutputFailureInThePrompt : Prop :=
  ∀ (ign : BitVec 4) (s : State) (k : Nat) (as : List SinkAnswer), s.io.sinkCanFail = true →
    s.sinkAnswers = List.replicate k .ok ++ .fail :: as → k ≤ s.io.inPrompt.length → ¬mustWait (.trapIn ign) s →
    ∃ t, exec (.trapIn ign) s = .next t ∧ ServiceKept [] s t ∧ t.input = s.input ∧ t.sinkAnswers = as ∧
      t.run = .fatal (.outputFailed ⟨0xF#4 ++ ign ++ 0x23#8, plus16 s.pc (-1)⟩) ∧
      t.output = s.output ++ (s.io.inPrompt.map .byte).take k

/-- A sink that may fail and accepts everything it is given is as a sink that cannot fail: the same next state, but for
the answers that have been given, so every statement above about a sink that cannot fail holds of it too (rule R217;
the answers are the model's form of the failure behaviour, log 8). -/
def Obligations.AcceptingSinkIsAsOneThatCannotFail : Prop :=
  ∀ (i : Instr) (s t : State), (∀ a ∈ s.sinkAnswers, a = .ok) →
    exec i { s with io := ⟨s.io.inPrompt, false⟩ } = .next t →
    ∃ as, (∀ a ∈ as, a = .ok) ∧ exec i s = .next { t with io := s.io, sinkAnswers := as }

/-! ## The cycle -/

/-- A step of a running machine fetches the word at the PC, increments the PC mod 65536 and executes the decoded
instruction (rules R120 to R123). -/
def Obligations.StepRunsTheDecodedInstruction : Prop :=
  ∀ (s : State) (i : Instr) (rest : List Byte), s.run = .running →
    decode [(s.readCell s.pc).setWidth 8, ((s.readCell s.pc) >>> 8).setWidth 8] = .ok (i, rest) →
    i.wf = true ∧ encode i = s.readCell s.pc ∧ step s = exec i (s.withPc (plus16 s.pc 1))

/-- The word that `withFetchWord` places is the one the next step executes, from any state. -/
def Obligations.PlacedWordRunsNext : Prop :=
  ∀ (s : State) (i : Instr), i.wf = true →
    step (s.withFetchWord 16 (encode i).toNat) =
      exec i ((s.withFetchWord 16 (encode i).toNat).withPc (plus16 s.pc 1))

/-- In a terminal state no cycle is enabled: a further `step()` or `run()` returns the stored outcome and changes nothing
(rule R125; that a further request is no error is decision D19, log 15). -/
def Obligations.TerminalStatesAreSticky : Prop :=
  ∀ (s : State) (fuel : Nat), s.run ≠ .running →
    step s = .next s ∧ s.hostStep = some (s, s.run) ∧ runCycles fuel s = .returned s

/-- `step()` of the host performs exactly one cycle: where the cycle need not wait it is one step of the machine, none if
that never completes; a GETC or IN that must wait does not return before the source can answer, whatever number of moves
that takes; it never returns if and only if the source has nothing yet for ever; and when it returns the cycle has been
performed, since the PC has advanced (rules R126 and R128; the moves of the source are the model's, log 9). -/
def Obligations.HostStepPerformsOneCycle : Prop :=
  (∀ s : State, ¬(s.run = .running ∧ mustWait (decodeWord s.fetchWord) s) →
    (∀ t o, s.hostStep = some (t, o) ↔ step s = .next t ∧ o = t.run) ∧
    (s.hostStep = none ↔ ∀ t, step s ≠ .next t)) ∧
  ∀ s : State, s.run = .running → readsInput (decodeWord s.fetchWord) = true →
    (∀ rest, s.input.answer = .notYet rest → s.hostStep = (s.withInput rest).hostStep) ∧
    (s.hostStep = none ↔
      ∀ n t, Host.Core.run Sys2Proof.core n s = .next t → mustWait (decodeWord t.fetchWord) t) ∧
    ∀ t o, s.hostStep = some (t, o) → o = t.run ∧ t.pc = plus16 s.pc 1

/-- Nothing is refused, and no step stops the machine but a PUTS or PUTSP in a memory without a zero word (rules R257 and
R303; decision D17, log 14). -/
def Obligations.OnlyAnEndlessStringStops : Prop :=
  ∀ s : State, (∀ r, step s ≠ .refused r) ∧
    ∀ r, step s = .fault r → r = .endlessString ∧ s.run = .running ∧ scansString (decodeWord s.fetchWord) = true ∧
      ∀ a, s.readCell a ≠ 0#16

/-- What a cycle touches: it writes the PC, and beyond that it changes only what its instruction's rule names; all other
registers, COND, all other cells, the streams its rule does not name and the parameters keep their values (rule R124).
A cycle that must wait is not performed. -/
def Obligations.CycleTouchesOnlyWhatItsRuleNames : Prop :=
  ∀ (s t : State) (i : Instr), s.run = .running → i = decodeWord s.fetchWord → step s = .next t →
    ¬mustWait i s →
    RegsKept (writtenRegs i) s t ∧
    CellsKept (storedCells i (s.withPc (plus16 s.pc 1))) s t ∧
    (destReg i = none → t.cond = s.cond) ∧
    (transfersControl i = false → t.pc = plus16 s.pc 1) ∧
    (readsInput i = false → t.input = s.input) ∧
    (writesSink i = false → t.output = s.output ∧ t.sinkAnswers = s.sinkAnswers) ∧
    (i.opcode ≠ .trap → i.opcode ≠ .none1000 → i.opcode ≠ .none1101 → t.run = .running) ∧
    t.io = s.io

/-- COND is written by ADD, AND, NOT, LD, LDI, LDR and LEA alone, from the value they wrote, every time they execute;
and BR alone reads it: any other instruction has the same effect whatever COND is.  The fetch step neither writes nor
reads it (rule R29). -/
def Obligations.CondWritersAndReader : Prop :=
  (∀ s : State, s.advancePc.cond = s.cond ∧ ∀ c, (s.withCond c).advancePc = s.advancePc.withCond c) ∧
  ∀ (i : Instr) (s t : State), exec i s = .next t →
    (∀ dr, destReg i = some dr → CondShows (t.readReg dr) t.cond) ∧
    (destReg i = none → t.cond = s.cond) ∧
    (i.opcode ≠ .br → ∀ c, ∃ c', exec i (s.withCond c) = .next (t.withCond c'))

/-- How a cycle can end: Running; Halted, by HALT; or Fatal, by one of the instructions of the table of rule R251, with the
word and its address as the information (rules R123 and R251; the diagnostic is decision D12, log 11). -/
def Obligations.HowACycleEnds : Prop :=
  ∀ (i : Instr) (s t : State), s.run = .running → exec i s = .next t →
    t.run = .running ∨
    (t.run = .halted ∧ ∃ g, i = .trapHalt g) ∨
    (t.run = .fatal (.unknownOpcode ⟨encode i, plus16 s.pc (-1)⟩) ∧
      (i.opcode = .none1000 ∨ i.opcode = .none1101)) ∨
    (t.run = .fatal (.unknownTrapVector ⟨encode i, plus16 s.pc (-1)⟩) ∧ ∃ g v, i = .trapUnknown g v) ∨
    (t.run = .fatal (.inputFailed ⟨encode i, plus16 s.pc (-1)⟩) ∧ readsInput i = true ∧ t.readReg 0#3 = s.readReg 0#3) ∨
    (t.run = .fatal (.outputFailed ⟨encode i, plus16 s.pc (-1)⟩) ∧ s.io.sinkCanFail = true ∧
      t.readReg 0#3 = s.readReg 0#3 ∧
      ∃ g, i = .trapOut g ∨ i = .trapPuts g ∨ i = .trapIn g ∨ i = .trapPutsp g ∨ i = .trapHalt g)

/-- The output only grows, and the machine never reads it: whatever stands in the sink, a step has the same effect and
appends the same events (rules R32 and R33). -/
def Obligations.OutputIsAppendOnlyAndNeverRead : Prop :=
  ∀ s t : State, step s = .next t → ∃ evs, t.output = s.output ++ evs ∧
    ∀ out, step (s.withOutput out) = .next (t.withOutput (out ++ evs))

/-- `run()` is the iteration of `step()`: when it returns, it returns the state that as many steps reach, a larger bound
returns the same, and the outcome is not Running; and when the iteration reaches an outcome that is not Running, `run()`
returns it (rule R127). -/
def Obligations.RunIsIteratedStep : Prop :=
  ∀ (fuel : Nat) (s t : State),
    (runCycles fuel s = .returned t →
      t.run ≠ .running ∧ Host.Core.run Sys2Proof.core fuel s = .next t ∧ ∀ more, runCycles (fuel + more) s = .returned t) ∧
    (Host.Core.run Sys2Proof.core fuel s = .next t → t.run ≠ .running → runCycles fuel s = .returned t)

/-! ## Memory, invariant, reset and load -/

/-- Memory has one form for one content: canonical memories that read alike at every cell are equal.  The form is the
model's (log 2 and 6). -/
def Obligations.CanonicalMemoryIsUnique : Prop :=
  ∀ m m' : Memory, Memory.wf m → Memory.wf m' → (∀ a, memRead m a = memRead m' a) → m = m'

/-- Every step keeps the invariant: canonical memory; a fatal outcome is one of the table, names the offending instruction
and its address, and is never InternalInvariant; a sink that never fails has nothing buffered (rules R253, R256 and
R33; the recorded address is decision D12, log 11). -/
def Obligations.StepKeepsInvariant : Prop :=
  ∀ s t : State, s.Inv → step s = .next t → t.Inv

/-- The invariant holds after reset, at every setting of the parameters whose MEM_RESET is in canonical form, the default
setting among them. -/
def Obligations.ResetMeetsInvariant : Prop :=
  State.reset.Inv ∧ ∀ (p : Params) (env : Environment), Memory.wf p.memReset → (State.resetWith p env).Inv

/-- Reset sets every element: PC_START, COND_RESET, REG_RESET, MEM_RESET, Running, the input source unread, the output
empty, at every setting of the parameters (rule R290). -/
def Obligations.ResetSetsEveryElement : Prop :=
  ∀ (p : Params) (env : Environment),
    (State.resetWith p env).pc = p.pcStart ∧ (State.resetWith p env).cond = p.condReset ∧
    (∀ r : RegIdx, (State.resetWith p env).readReg r = p.regReset[r.toNat]'r.isLt) ∧
    (∀ a, (State.resetWith p env).readCell a = memRead p.memReset a) ∧ (State.resetWith p env).run = .running ∧
    (State.resetWith p env).input = env.input ∧ (State.resetWith p env).output = [] ∧
    (State.resetWith p env).io = p.io

/-- Reset at the defaults, which are the spec's choice and not the source's (decisions D6 to D9, log 3 to 6): PC 0x3000,
COND Z, every register and every cell zero; and a machine started so without a load executes a branch that is never
taken (rule R89). -/
def Obligations.ResetDefaults : Prop :=
  State.reset.pc = 0x3000#16 ∧ State.reset.cond = .Z ∧ State.reset.run = .running ∧
  (∀ r, State.reset.readReg r = 0#16) ∧ (∀ a, State.reset.readCell a = 0#16) ∧
  step State.reset = .next (State.reset.withPc 0x3001#16)

/-- `load`: the words in consecutive cells from the origin, wrapping; the PC at the origin; Running; every other cell, the
registers, COND and the streams kept; an image of more than 65536 words is refused.  Wrap, limit and Running are
decision D23 (rule R295, log 16). -/
def Obligations.LoadPlacesTheImage : Prop :=
  ∀ (s : State) (words : List Word) (origin : Word),
    (words.length ≤ 65536 → ∃ t, s.load words origin = some t ∧
      (∀ k (h : k < words.length), t.readCell (plus16 origin k) = words[k]) ∧
      (∀ a, (∀ k, k < words.length → a ≠ plus16 origin k) → t.readCell a = s.readCell a) ∧
      t.pc = origin ∧ t.run = .running ∧ RegsKept [] s t ∧ t.cond = s.cond ∧ StreamsKept s t ∧ t.io = s.io ∧
      (s.Inv → t.Inv)) ∧
    (65536 < words.length → s.load words origin = none)
end

