-- ==== Sys2Proof/Laws/Memory.lean ====
section
/-! SUPPORT. The laws of the memory array: a read after a write, and that every write keeps the canonical form. -/

namespace Sys2Proof.Machine

/-! ## Reading after writing, byte by byte -/

theorem memReadByte_filter_ne (m : Memory) {a b : Nat} (h : b ≠ a) :
    memReadByte (m.filter (fun c => c.1 != a)) b = memReadByte m b := by
  induction m with
  | nil => rfl
  | cons c m ih =>
    by_cases hc : c.1 = a
    · have hb : c.1 ≠ b := by omega
      simp [hc, memReadByte, ih]
      omega
    · simp [hc, memReadByte, ih]

theorem memReadByte_filter_self (m : Memory) (a : Nat) :
    memReadByte (m.filter (fun c => c.1 != a)) a = unlistedByte := by
  induction m with
  | nil => rfl
  | cons c m ih => by_cases hc : c.1 = a <;> simp [hc, memReadByte, ih]

theorem memReadByte_memInsertByte (m : Memory) (a : Nat) (v : Byte) (b : Nat)
    (hm : ∀ c ∈ m, c.1 ≠ a) :
    memReadByte (memInsertByte m a v) b = if b = a then v else memReadByte m b := by
  induction m with
  | nil => simp [memInsertByte, memReadByte, eq_comm]
  | cons c m ih =>
    obtain ⟨k, x⟩ := c
    have hk : k ≠ a := hm (k, x) (by simp)
    have ih := ih (fun c hc => hm c (by simp [hc]))
    by_cases hlt : a < k
    · simp [memInsertByte, hlt, memReadByte, eq_comm]
    · simp only [memInsertByte, hlt, if_false, memReadByte, ih]
      by_cases hkb : k = b
      · have : b ≠ a := by omega
        simp [hkb, this]
      · simp [hkb]

theorem memReadByte_memWriteByte (m : Memory) (a : Nat) (v : Byte) (b : Nat) :
    memReadByte (memWriteByte m a v) b = if b = a then v else memReadByte m b := by
  have hm : ∀ c ∈ m.filter (fun c => c.1 != a), c.1 ≠ a := by
    intro c hc
    simpa using (List.mem_filter.mp hc).2
  by_cases hv : v = unlistedByte
  · by_cases hb : b = a
    · subst hb
      simp [memWriteByte, hv, memReadByte_filter_self]
    · simp [memWriteByte, hv, hb, memReadByte_filter_ne]
  · simp only [memWriteByte, hv, if_false, memReadByte_memInsertByte _ a v b hm]
    by_cases hb : b = a
    · simp [hb]
    · simp [hb, memReadByte_filter_ne]

/-! ## Words -/

theorem joinBytes_high_low (w : Word) : joinBytes (highByte w) (lowByte w) = w := by
  apply BitVec.eq_of_getLsbD_eq
  intro i hi
  simp only [joinBytes, highByte, lowByte, BitVec.getLsbD_append, BitVec.getLsbD_extractLsb']
  by_cases h : i < 8
  · simp [h]
  · have h8 : i - 8 < 8 := by omega
    have e : 8 + (i - 8) = i := by omega
    simp [h, h8, e]

/-- "`write(a, v)` followed by `read(a)` returns `v`", and no other cell changes (20_memory.md rule R51). -/
theorem memRead_memWrite (m : Memory) (a v b : Word) :
    memRead (memWrite m a v) b = if b = a then v else memRead m b := by
  by_cases h : b = a
  · subst h
    simp [memRead, memWrite, memReadByte_memWriteByte, joinBytes_high_low]
  · have hn : b.toNat ≠ a.toNat := fun e => h (BitVec.eq_of_toNat_eq e)
    have h1 : 2 * b.toNat + 1 ≠ 2 * a.toNat := by omega
    have h2 : 2 * b.toNat ≠ 2 * a.toNat + 1 := by omega
    simp [memRead, memWrite, memReadByte_memWriteByte, h, hn, h1, h2]

/-! ## The canonical form -/

theorem Memory.wf_nil : Memory.wf [] := by simp [Memory.wf]

theorem mem_memInsertByte {m : Memory} {a : Nat} {v : Byte} {c : Host.Cell} :
    c ∈ memInsertByte m a v ↔ c = (a, v) ∨ c ∈ m := by
  induction m with
  | nil => simp [memInsertByte]
  | cons d m ih =>
    obtain ⟨k, x⟩ := d
    by_cases h : a < k
    · simp [memInsertByte, h]
    · simp only [memInsertByte, h, if_false, List.mem_cons, ih]
      tauto

theorem pairwise_memInsertByte {m : Memory} {a : Nat} {v : Byte}
    (h : m.Pairwise (fun x y => x.1 < y.1)) (hm : ∀ c ∈ m, c.1 ≠ a) :
    (memInsertByte m a v).Pairwise (fun x y => x.1 < y.1) := by
  induction m with
  | nil => simp [memInsertByte]
  | cons d m ih =>
    obtain ⟨k, x⟩ := d
    have hk : k ≠ a := hm (k, x) (by simp)
    obtain ⟨h1, h2⟩ := List.pairwise_cons.mp h
    by_cases hlt : a < k
    · simp only [memInsertByte, hlt, if_true]
      refine List.pairwise_cons.mpr ⟨?_, h⟩
      intro c hc
      rcases List.mem_cons.mp hc with rfl | hc
      · exact hlt
      · exact Nat.lt_trans hlt (h1 c hc)
    · simp only [memInsertByte, hlt, if_false]
      refine List.pairwise_cons.mpr ⟨?_, ih h2 (fun c hc => hm c (by simp [hc]))⟩
      intro c hc
      rcases mem_memInsertByte.mp hc with rfl | hc
      · show k < a
        omega
      · exact h1 c hc

theorem memWriteByte_wf {m : Memory} {a : Nat} (v : Byte) (h : m.wf) (ha : a < memoryBytes) :
    (memWriteByte m a v).wf := by
  obtain ⟨h1, h2⟩ := h
  have f1 : (m.filter (fun c => c.1 != a)).Pairwise (fun x y => x.1 < y.1) := h1.filter _
  have f2 : ∀ c ∈ m.filter (fun c => c.1 != a), c.1 ≠ a ∧ c.1 < memoryBytes ∧ c.2 ≠ unlistedByte := by
    intro c hc
    obtain ⟨hc1, hc2⟩ := List.mem_filter.mp hc
    exact ⟨by simpa using hc2, h2 c hc1⟩
  by_cases hv : v = unlistedByte
  · simp only [memWriteByte, hv, if_true]
    exact ⟨f1, fun c hc => (f2 c hc).2⟩
  · simp only [memWriteByte, hv, if_false]
    refine ⟨pairwise_memInsertByte f1 (fun c hc => (f2 c hc).1), ?_⟩
    intro c hc
    rcases mem_memInsertByte.mp hc with rfl | hc
    · exact ⟨ha, hv⟩
    · exact (f2 c hc).2

/-- Every write of a cell keeps the canonical form. -/
theorem memWrite_wf {m : Memory} (a v : Word) (h : m.wf) : (memWrite m a v).wf := by
  have ha : a.toNat < 65536 := a.isLt
  exact memWriteByte_wf _ (memWriteByte_wf _ h (by unfold memoryBytes; omega)) (by unfold memoryBytes; omega)

end Sys2Proof.Machine
end

