-- ==== Sys2Proof/Laws/State.lean ====
section
/-! SUPPORT. What each update of State does to each of its fields: one lemma per field per update, true by rfl, so that
no later proof unfolds an update. -/

namespace Sys2Proof.Machine

/-! ## withRegs -/

@[simp] theorem State.regs_withRegs (s : State) (v : Vector Word 8) : (s.withRegs v).regs = v := rfl
@[simp] theorem State.pc_withRegs (s : State) (v : Vector Word 8) : (s.withRegs v).pc = s.pc := rfl
@[simp] theorem State.cond_withRegs (s : State) (v : Vector Word 8) : (s.withRegs v).cond = s.cond := rfl
@[simp] theorem State.run_withRegs (s : State) (v : Vector Word 8) : (s.withRegs v).run = s.run := rfl
@[simp] theorem State.mem_withRegs (s : State) (v : Vector Word 8) : (s.withRegs v).mem = s.mem := rfl
@[simp] theorem State.input_withRegs (s : State) (v : Vector Word 8) : (s.withRegs v).input = s.input := rfl
@[simp] theorem State.output_withRegs (s : State) (v : Vector Word 8) : (s.withRegs v).output = s.output := rfl
@[simp] theorem State.sinkAnswers_withRegs (s : State) (v : Vector Word 8) : (s.withRegs v).sinkAnswers = s.sinkAnswers := rfl
@[simp] theorem State.io_withRegs (s : State) (v : Vector Word 8) : (s.withRegs v).io = s.io := rfl

/-! ## withPc -/

@[simp] theorem State.regs_withPc (s : State) (v : Word) : (s.withPc v).regs = s.regs := rfl
@[simp] theorem State.pc_withPc (s : State) (v : Word) : (s.withPc v).pc = v := rfl
@[simp] theorem State.cond_withPc (s : State) (v : Word) : (s.withPc v).cond = s.cond := rfl
@[simp] theorem State.run_withPc (s : State) (v : Word) : (s.withPc v).run = s.run := rfl
@[simp] theorem State.mem_withPc (s : State) (v : Word) : (s.withPc v).mem = s.mem := rfl
@[simp] theorem State.input_withPc (s : State) (v : Word) : (s.withPc v).input = s.input := rfl
@[simp] theorem State.output_withPc (s : State) (v : Word) : (s.withPc v).output = s.output := rfl
@[simp] theorem State.sinkAnswers_withPc (s : State) (v : Word) : (s.withPc v).sinkAnswers = s.sinkAnswers := rfl
@[simp] theorem State.io_withPc (s : State) (v : Word) : (s.withPc v).io = s.io := rfl

/-! ## withCond -/

@[simp] theorem State.regs_withCond (s : State) (v : Cond) : (s.withCond v).regs = s.regs := rfl
@[simp] theorem State.pc_withCond (s : State) (v : Cond) : (s.withCond v).pc = s.pc := rfl
@[simp] theorem State.cond_withCond (s : State) (v : Cond) : (s.withCond v).cond = v := rfl
@[simp] theorem State.run_withCond (s : State) (v : Cond) : (s.withCond v).run = s.run := rfl
@[simp] theorem State.mem_withCond (s : State) (v : Cond) : (s.withCond v).mem = s.mem := rfl
@[simp] theorem State.input_withCond (s : State) (v : Cond) : (s.withCond v).input = s.input := rfl
@[simp] theorem State.output_withCond (s : State) (v : Cond) : (s.withCond v).output = s.output := rfl
@[simp] theorem State.sinkAnswers_withCond (s : State) (v : Cond) : (s.withCond v).sinkAnswers = s.sinkAnswers := rfl
@[simp] theorem State.io_withCond (s : State) (v : Cond) : (s.withCond v).io = s.io := rfl

/-! ## withRun -/

@[simp] theorem State.regs_withRun (s : State) (v : Run) : (s.withRun v).regs = s.regs := rfl
@[simp] theorem State.pc_withRun (s : State) (v : Run) : (s.withRun v).pc = s.pc := rfl
@[simp] theorem State.cond_withRun (s : State) (v : Run) : (s.withRun v).cond = s.cond := rfl
@[simp] theorem State.run_withRun (s : State) (v : Run) : (s.withRun v).run = v := rfl
@[simp] theorem State.mem_withRun (s : State) (v : Run) : (s.withRun v).mem = s.mem := rfl
@[simp] theorem State.input_withRun (s : State) (v : Run) : (s.withRun v).input = s.input := rfl
@[simp] theorem State.output_withRun (s : State) (v : Run) : (s.withRun v).output = s.output := rfl
@[simp] theorem State.sinkAnswers_withRun (s : State) (v : Run) : (s.withRun v).sinkAnswers = s.sinkAnswers := rfl
@[simp] theorem State.io_withRun (s : State) (v : Run) : (s.withRun v).io = s.io := rfl

/-! ## withMem -/

@[simp] theorem State.regs_withMem (s : State) (v : List Host.Cell) : (s.withMem v).regs = s.regs := rfl
@[simp] theorem State.pc_withMem (s : State) (v : List Host.Cell) : (s.withMem v).pc = s.pc := rfl
@[simp] theorem State.cond_withMem (s : State) (v : List Host.Cell) : (s.withMem v).cond = s.cond := rfl
@[simp] theorem State.run_withMem (s : State) (v : List Host.Cell) : (s.withMem v).run = s.run := rfl
@[simp] theorem State.mem_withMem (s : State) (v : List Host.Cell) : (s.withMem v).mem = v := rfl
@[simp] theorem State.input_withMem (s : State) (v : List Host.Cell) : (s.withMem v).input = s.input := rfl
@[simp] theorem State.output_withMem (s : State) (v : List Host.Cell) : (s.withMem v).output = s.output := rfl
@[simp] theorem State.sinkAnswers_withMem (s : State) (v : List Host.Cell) : (s.withMem v).sinkAnswers = s.sinkAnswers := rfl
@[simp] theorem State.io_withMem (s : State) (v : List Host.Cell) : (s.withMem v).io = s.io := rfl

/-! ## withInput -/

@[simp] theorem State.regs_withInput (s : State) (v : InputSource) : (s.withInput v).regs = s.regs := rfl
@[simp] theorem State.pc_withInput (s : State) (v : InputSource) : (s.withInput v).pc = s.pc := rfl
@[simp] theorem State.cond_withInput (s : State) (v : InputSource) : (s.withInput v).cond = s.cond := rfl
@[simp] theorem State.run_withInput (s : State) (v : InputSource) : (s.withInput v).run = s.run := rfl
@[simp] theorem State.mem_withInput (s : State) (v : InputSource) : (s.withInput v).mem = s.mem := rfl
@[simp] theorem State.input_withInput (s : State) (v : InputSource) : (s.withInput v).input = v := rfl
@[simp] theorem State.output_withInput (s : State) (v : InputSource) : (s.withInput v).output = s.output := rfl
@[simp] theorem State.sinkAnswers_withInput (s : State) (v : InputSource) : (s.withInput v).sinkAnswers = s.sinkAnswers := rfl
@[simp] theorem State.io_withInput (s : State) (v : InputSource) : (s.withInput v).io = s.io := rfl

/-! ## withOutput -/

@[simp] theorem State.regs_withOutput (s : State) (v : List SinkEvent) : (s.withOutput v).regs = s.regs := rfl
@[simp] theorem State.pc_withOutput (s : State) (v : List SinkEvent) : (s.withOutput v).pc = s.pc := rfl
@[simp] theorem State.cond_withOutput (s : State) (v : List SinkEvent) : (s.withOutput v).cond = s.cond := rfl
@[simp] theorem State.run_withOutput (s : State) (v : List SinkEvent) : (s.withOutput v).run = s.run := rfl
@[simp] theorem State.mem_withOutput (s : State) (v : List SinkEvent) : (s.withOutput v).mem = s.mem := rfl
@[simp] theorem State.input_withOutput (s : State) (v : List SinkEvent) : (s.withOutput v).input = s.input := rfl
@[simp] theorem State.output_withOutput (s : State) (v : List SinkEvent) : (s.withOutput v).output = v := rfl
@[simp] theorem State.sinkAnswers_withOutput (s : State) (v : List SinkEvent) : (s.withOutput v).sinkAnswers = s.sinkAnswers := rfl
@[simp] theorem State.io_withOutput (s : State) (v : List SinkEvent) : (s.withOutput v).io = s.io := rfl

/-! ## withSinkAnswers -/

@[simp] theorem State.regs_withSinkAnswers (s : State) (v : List SinkAnswer) : (s.withSinkAnswers v).regs = s.regs := rfl
@[simp] theorem State.pc_withSinkAnswers (s : State) (v : List SinkAnswer) : (s.withSinkAnswers v).pc = s.pc := rfl
@[simp] theorem State.cond_withSinkAnswers (s : State) (v : List SinkAnswer) : (s.withSinkAnswers v).cond = s.cond := rfl
@[simp] theorem State.run_withSinkAnswers (s : State) (v : List SinkAnswer) : (s.withSinkAnswers v).run = s.run := rfl
@[simp] theorem State.mem_withSinkAnswers (s : State) (v : List SinkAnswer) : (s.withSinkAnswers v).mem = s.mem := rfl
@[simp] theorem State.input_withSinkAnswers (s : State) (v : List SinkAnswer) : (s.withSinkAnswers v).input = s.input := rfl
@[simp] theorem State.output_withSinkAnswers (s : State) (v : List SinkAnswer) : (s.withSinkAnswers v).output = s.output := rfl
@[simp] theorem State.sinkAnswers_withSinkAnswers (s : State) (v : List SinkAnswer) : (s.withSinkAnswers v).sinkAnswers = v := rfl
@[simp] theorem State.io_withSinkAnswers (s : State) (v : List SinkAnswer) : (s.withSinkAnswers v).io = s.io := rfl

end Sys2Proof.Machine
end

