-- ==== Sys2Proof/Laws/Access.lean ====
section
/-! SUPPORT. The accessors against the updates: the read of a register or a cell after each update of State, and the
fields after `writeReg`, `writeCell`, `writeDest`, `raiseFatal` and `hold`. -/

namespace Sys2Proof.Machine

/-! ## Registers -/

theorem State.readReg_writeReg (s : State) (d r : RegIdx) (v : Word) :
    (s.writeReg d v).readReg r = if r = d then v else s.readReg r := by
  simp only [State.readReg, State.writeReg, State.regs_withRegs, Vector.getElem_set, BitVec.toNat_inj, eq_comm]

@[simp] theorem State.readReg_writeReg_self (s : State) (d : RegIdx) (v : Word) : (s.writeReg d v).readReg d = v := by
  simp [State.readReg_writeReg]

theorem State.readReg_writeReg_of_ne (s : State) {d r : RegIdx} (v : Word) (h : r ≠ d) :
    (s.writeReg d v).readReg r = s.readReg r := by
  simp [State.readReg_writeReg, h]

@[simp] theorem State.readReg_withPc (s : State) (v : Word) (r : RegIdx) : (s.withPc v).readReg r = s.readReg r := rfl
@[simp] theorem State.readReg_withCond (s : State) (v : Cond) (r : RegIdx) : (s.withCond v).readReg r = s.readReg r := rfl
@[simp] theorem State.readReg_withRun (s : State) (v : Run) (r : RegIdx) : (s.withRun v).readReg r = s.readReg r := rfl
@[simp] theorem State.readReg_withMem (s : State) (v : List Host.Cell) (r : RegIdx) : (s.withMem v).readReg r = s.readReg r := rfl
@[simp] theorem State.readReg_withInput (s : State) (v : InputSource) (r : RegIdx) : (s.withInput v).readReg r = s.readReg r := rfl
@[simp] theorem State.readReg_withOutput (s : State) (v : List SinkEvent) (r : RegIdx) : (s.withOutput v).readReg r = s.readReg r := rfl
@[simp] theorem State.readReg_withSinkAnswers (s : State) (v : List SinkAnswer) (r : RegIdx) : (s.withSinkAnswers v).readReg r = s.readReg r := rfl

@[simp] theorem State.pc_writeReg (s : State) (d : RegIdx) (v : Word) : (s.writeReg d v).pc = s.pc := rfl
@[simp] theorem State.cond_writeReg (s : State) (d : RegIdx) (v : Word) : (s.writeReg d v).cond = s.cond := rfl
@[simp] theorem State.run_writeReg (s : State) (d : RegIdx) (v : Word) : (s.writeReg d v).run = s.run := rfl
@[simp] theorem State.mem_writeReg (s : State) (d : RegIdx) (v : Word) : (s.writeReg d v).mem = s.mem := rfl
@[simp] theorem State.input_writeReg (s : State) (d : RegIdx) (v : Word) : (s.writeReg d v).input = s.input := rfl
@[simp] theorem State.output_writeReg (s : State) (d : RegIdx) (v : Word) : (s.writeReg d v).output = s.output := rfl
@[simp] theorem State.sinkAnswers_writeReg (s : State) (d : RegIdx) (v : Word) : (s.writeReg d v).sinkAnswers = s.sinkAnswers := rfl
@[simp] theorem State.io_writeReg (s : State) (d : RegIdx) (v : Word) : (s.writeReg d v).io = s.io := rfl
@[simp] theorem State.readCell_writeReg (s : State) (d : RegIdx) (v a : Word) : (s.writeReg d v).readCell a = s.readCell a := rfl

/-! ## Memory cells -/

theorem State.readCell_writeCell (s : State) (a v b : Word) :
    (s.writeCell a v).readCell b = if b = a then v else s.readCell b := memRead_memWrite s.mem a v b

@[simp] theorem State.readCell_writeCell_self (s : State) (a v : Word) : (s.writeCell a v).readCell a = v := by
  simp [State.readCell_writeCell]

theorem State.readCell_writeCell_of_ne (s : State) {a b : Word} (v : Word) (h : b ≠ a) :
    (s.writeCell a v).readCell b = s.readCell b := by
  simp [State.readCell_writeCell, h]

@[simp] theorem State.readCell_withRegs (s : State) (v : Vector Word 8) (a : Word) : (s.withRegs v).readCell a = s.readCell a := rfl
@[simp] theorem State.readCell_withPc (s : State) (v : Word) (a : Word) : (s.withPc v).readCell a = s.readCell a := rfl
@[simp] theorem State.readCell_withCond (s : State) (v : Cond) (a : Word) : (s.withCond v).readCell a = s.readCell a := rfl
@[simp] theorem State.readCell_withRun (s : State) (v : Run) (a : Word) : (s.withRun v).readCell a = s.readCell a := rfl
@[simp] theorem State.readCell_withInput (s : State) (v : InputSource) (a : Word) : (s.withInput v).readCell a = s.readCell a := rfl
@[simp] theorem State.readCell_withOutput (s : State) (v : List SinkEvent) (a : Word) : (s.withOutput v).readCell a = s.readCell a := rfl
@[simp] theorem State.readCell_withSinkAnswers (s : State) (v : List SinkAnswer) (a : Word) : (s.withSinkAnswers v).readCell a = s.readCell a := rfl

@[simp] theorem State.regs_writeCell (s : State) (a v : Word) : (s.writeCell a v).regs = s.regs := rfl
@[simp] theorem State.pc_writeCell (s : State) (a v : Word) : (s.writeCell a v).pc = s.pc := rfl
@[simp] theorem State.cond_writeCell (s : State) (a v : Word) : (s.writeCell a v).cond = s.cond := rfl
@[simp] theorem State.run_writeCell (s : State) (a v : Word) : (s.writeCell a v).run = s.run := rfl
@[simp] theorem State.input_writeCell (s : State) (a v : Word) : (s.writeCell a v).input = s.input := rfl
@[simp] theorem State.output_writeCell (s : State) (a v : Word) : (s.writeCell a v).output = s.output := rfl
@[simp] theorem State.sinkAnswers_writeCell (s : State) (a v : Word) : (s.writeCell a v).sinkAnswers = s.sinkAnswers := rfl
@[simp] theorem State.io_writeCell (s : State) (a v : Word) : (s.writeCell a v).io = s.io := rfl
@[simp] theorem State.readReg_writeCell (s : State) (a v : Word) (r : RegIdx) : (s.writeCell a v).readReg r = s.readReg r := rfl

/-! ## Destination registers -/

@[simp] theorem State.cond_writeDest (s : State) (d : RegIdx) (v : Word) : (s.writeDest d v).cond = condOf v := by
  simp [State.writeDest, State.setcc]

theorem State.readReg_writeDest (s : State) (d r : RegIdx) (v : Word) :
    (s.writeDest d v).readReg r = if r = d then v else s.readReg r := by
  simp [State.writeDest, State.setcc, State.readReg_writeReg]

@[simp] theorem State.readReg_writeDest_self (s : State) (d : RegIdx) (v : Word) : (s.writeDest d v).readReg d = v := by
  simp [State.readReg_writeDest]

@[simp] theorem State.pc_writeDest (s : State) (d : RegIdx) (v : Word) : (s.writeDest d v).pc = s.pc := rfl
@[simp] theorem State.run_writeDest (s : State) (d : RegIdx) (v : Word) : (s.writeDest d v).run = s.run := rfl
@[simp] theorem State.mem_writeDest (s : State) (d : RegIdx) (v : Word) : (s.writeDest d v).mem = s.mem := rfl
@[simp] theorem State.input_writeDest (s : State) (d : RegIdx) (v : Word) : (s.writeDest d v).input = s.input := rfl
@[simp] theorem State.output_writeDest (s : State) (d : RegIdx) (v : Word) : (s.writeDest d v).output = s.output := rfl
@[simp] theorem State.sinkAnswers_writeDest (s : State) (d : RegIdx) (v : Word) : (s.writeDest d v).sinkAnswers = s.sinkAnswers := rfl
@[simp] theorem State.io_writeDest (s : State) (d : RegIdx) (v : Word) : (s.writeDest d v).io = s.io := rfl
@[simp] theorem State.readCell_writeDest (s : State) (d : RegIdx) (v a : Word) : (s.writeDest d v).readCell a = s.readCell a := rfl

/-! ## The fetch, fatal errors and the wait -/

@[simp] theorem State.advancePc_eq (s : State) : s.advancePc = s.withPc (s.pc + 1#16) := rfl

@[simp] theorem State.raiseFatal_eq (s : State) (c : FatalCause) : s.raiseFatal c = s.withRun (.fatal c) := rfl

theorem State.fetchAddr_advancePc (s : State) : s.advancePc.fetchAddr = s.pc := by
  simp [State.fetchAddr]

/-- A wait undoes the fetch and takes one move of the source. -/
theorem State.hold_advancePc (s : State) (rest : InputSource) : s.advancePc.hold rest = s.withInput rest := by
  simp only [State.hold, State.fetchAddr_advancePc]
  rfl

end Sys2Proof.Machine
end

