-- ==== Sys2Proof/Laws/Claims.lean ====
section
/-! SUPPORT. The bridge from the model's operations to the terms of Safety.lean: its addition and its extensions are
`plus16`, and each shared update has the effect named for it. -/

namespace Sys2Proof.Machine

/-! ## `+16` -/

theorem plus16_eq_add (a : Word) (k : Int) : plus16 a k = a + BitVec.ofInt 16 k := by
  simp [plus16, BitVec.ofInt_add]

theorem plus16_toNat (a b : Word) : plus16 a b.toNat = a + b := by
  simp [plus16_eq_add]

theorem plus16_natCast (a : Word) (k : Nat) : plus16 a k = a + BitVec.ofNat 16 k := by
  simp [plus16_eq_add]

theorem plus16_one (a : Word) : plus16 a 1 = a + 1#16 := by
  rw [plus16_eq_add]
  rfl

theorem plus16_neg_one (a : Word) : plus16 a (-1) = a - 1#16 := by
  rw [plus16_eq_add, BitVec.sub_eq_add_neg]
  rfl

theorem toInt_sext {n : Nat} (v : BitVec n) (h : n ≤ 16) : (sext v).toInt = v.toInt := by
  unfold sext
  rw [BitVec.toInt_signExtend_of_le h]

theorem plus16_toInt {n : Nat} (a : Word) (v : BitVec n) (h : n ≤ 16) : plus16 a v.toInt = a + sext v := by
  rw [plus16_eq_add, ← toInt_sext v h, BitVec.ofInt_toInt]

theorem lowByte_eq_setWidth (w : Word) : lowByte w = w.setWidth 8 := by
  unfold lowByte
  rw [← BitVec.setWidth_eq_extractLsb' (by omega)]

/-! ## COND -/

theorem condShows_condOf (v : Word) : CondShows v (condOf v) := by
  unfold condOf
  have hm : v.getLsbD 15 = decide (32768 ≤ v.toNat) := by
    have h := BitVec.msb_eq_decide v
    simpa [BitVec.msb_eq_getLsbD_last] using h
  have hz : v = 0#16 ↔ v.toNat = 0 := ⟨fun h => by simp [h], fun h => BitVec.eq_of_toNat_eq (by simpa using h)⟩
  constructor <;> (simp only [hz, hm]; split <;> (try split) <;> simp_all <;> omega)

/-! ## The shared effects -/

theorem writeDest_destWritten (s : State) (dr : RegIdx) (v : Word) : DestWritten dr v s (s.writeDest dr v) where
  value := by simp
  cond := by simpa using condShows_condOf v
  regs := fun r hr => by rw [State.readReg_writeDest, if_neg (by simpa using hr)]
  cells := fun a _ => by simp
  pc := rfl
  run := rfl
  streams := ⟨rfl, rfl, rfl⟩
  io := rfl

theorem writeCell_cellStored (s : State) (a v : Word) : CellStored a v s (s.writeCell a v) where
  value := by simp
  cells := fun b hb => by rw [State.readCell_writeCell, if_neg (by simpa using hb)]
  regs := fun r _ => by simp
  cond := rfl
  pc := rfl
  run := rfl
  streams := ⟨rfl, rfl, rfl⟩
  io := rfl

theorem withPc_controlAt (s : State) (target : Word) : ControlAt target [] s (s.withPc target) where
  pc := rfl
  regs := fun _ _ => rfl
  cells := fun _ _ => rfl
  cond := rfl
  run := rfl
  streams := ⟨rfl, rfl, rfl⟩
  io := rfl

theorem link_controlAt (s : State) (link target : Word) :
    ControlAt target [regR7] s ((s.writeReg regR7 link).withPc target) where
  pc := rfl
  regs := fun r hr => by
    rw [State.readReg_withPc]
    exact State.readReg_writeReg_of_ne _ _ (by simpa using hr)
  cells := fun _ _ => rfl
  cond := rfl
  run := rfl
  streams := ⟨rfl, rfl, rfl⟩
  io := rfl

theorem raiseFatal_serviceKept (s : State) (c : FatalCause) (results : List RegIdx) :
    ServiceKept results s (s.raiseFatal c) where
  regs := fun _ _ => rfl
  cells := fun _ _ => rfl
  pc := rfl
  cond := rfl
  io := rfl

/-! ## Fields of a word -/

/-- A field of a word, from its bits one by one. -/
theorem extractLsb'_eq_of_bits {n m : Nat} (w : BitVec n) (k : Nat) (v : BitVec m)
    (h : ∀ i < m, w.getLsbD (k + i) = v.getLsbD i) : w.extractLsb' k m = v := by
  apply BitVec.eq_of_getLsbD_eq
  intro i hi
  simp [hi, h i hi]

end Sys2Proof.Machine
end

