-- ==== Sys2Proof/Laws/PerInstr.lean ====
section
/-! SUPPORT. Lemmas made per instruction: the opcode field of an encoded instruction is its own opcode's number
(30_encoding.md rules R81 and R84). -/

namespace Sys2Proof

theorem Opcode.ofField_toField (o : Opcode) : Opcode.ofField o.toField = o := by
  cases o <;> rfl

theorem Opcode.toField_ofField (f : BitVec 4) : (Opcode.ofField f).toField = f := by
  revert f
  decide

namespace Laws.OpcodeField

/-- The family: `ir[15:12]` of the encoded instruction. -/
def Statement (i : Instr) : Prop := (encode i).extractLsb' 12 4 = i.opcode.toField

theorem br : ∀ n z p off, Statement (.br n z p off) := by
  intros
  apply BitVec.eq_of_getLsbD_eq
  intro k hk
  simp only [encode, Instr.opcode, BitVec.getLsbD_extractLsb', BitVec.getLsbD_append]
  interval_cases k <;> simp

theorem addReg : ∀ dr sr1 ign sr2, Statement (.addReg dr sr1 ign sr2) := by
  intros
  apply BitVec.eq_of_getLsbD_eq
  intro k hk
  simp only [encode, Instr.opcode, BitVec.getLsbD_extractLsb', BitVec.getLsbD_append]
  interval_cases k <;> simp

theorem addImm : ∀ dr sr1 imm, Statement (.addImm dr sr1 imm) := by
  intros
  apply BitVec.eq_of_getLsbD_eq
  intro k hk
  simp only [encode, Instr.opcode, BitVec.getLsbD_extractLsb', BitVec.getLsbD_append]
  interval_cases k <;> simp

theorem ld : ∀ dr off, Statement (.ld dr off) := by
  intros
  apply BitVec.eq_of_getLsbD_eq
  intro k hk
  simp only [encode, Instr.opcode, BitVec.getLsbD_extractLsb', BitVec.getLsbD_append]
  interval_cases k <;> simp

theorem st : ∀ sr off, Statement (.st sr off) := by
  intros
  apply BitVec.eq_of_getLsbD_eq
  intro k hk
  simp only [encode, Instr.opcode, BitVec.getLsbD_extractLsb', BitVec.getLsbD_append]
  interval_cases k <;> simp

theorem jsr : ∀ off, Statement (.jsr off) := by
  intros
  apply BitVec.eq_of_getLsbD_eq
  intro k hk
  simp only [encode, Instr.opcode, BitVec.getLsbD_extractLsb', BitVec.getLsbD_append]
  interval_cases k <;> simp

theorem jsrr : ∀ ignHi base ignLo, Statement (.jsrr ignHi base ignLo) := by
  intros
  apply BitVec.eq_of_getLsbD_eq
  intro k hk
  simp only [encode, Instr.opcode, BitVec.getLsbD_extractLsb', BitVec.getLsbD_append]
  interval_cases k <;> simp

theorem andReg : ∀ dr sr1 ign sr2, Statement (.andReg dr sr1 ign sr2) := by
  intros
  apply BitVec.eq_of_getLsbD_eq
  intro k hk
  simp only [encode, Instr.opcode, BitVec.getLsbD_extractLsb', BitVec.getLsbD_append]
  interval_cases k <;> simp

theorem andImm : ∀ dr sr1 imm, Statement (.andImm dr sr1 imm) := by
  intros
  apply BitVec.eq_of_getLsbD_eq
  intro k hk
  simp only [encode, Instr.opcode, BitVec.getLsbD_extractLsb', BitVec.getLsbD_append]
  interval_cases k <;> simp

theorem ldr : ∀ dr base off, Statement (.ldr dr base off) := by
  intros
  apply BitVec.eq_of_getLsbD_eq
  intro k hk
  simp only [encode, Instr.opcode, BitVec.getLsbD_extractLsb', BitVec.getLsbD_append]
  interval_cases k <;> simp

theorem str : ∀ sr base off, Statement (.str sr base off) := by
  intros
  apply BitVec.eq_of_getLsbD_eq
  intro k hk
  simp only [encode, Instr.opcode, BitVec.getLsbD_extractLsb', BitVec.getLsbD_append]
  interval_cases k <;> simp

theorem unimplemented1000 : ∀ ign, Statement (.unimplemented1000 ign) := by
  intros
  apply BitVec.eq_of_getLsbD_eq
  intro k hk
  simp only [encode, Instr.opcode, BitVec.getLsbD_extractLsb', BitVec.getLsbD_append]
  interval_cases k <;> simp

theorem not : ∀ dr sr ign, Statement (.not dr sr ign) := by
  intros
  apply BitVec.eq_of_getLsbD_eq
  intro k hk
  simp only [encode, Instr.opcode, BitVec.getLsbD_extractLsb', BitVec.getLsbD_append]
  interval_cases k <;> simp

theorem ldi : ∀ dr off, Statement (.ldi dr off) := by
  intros
  apply BitVec.eq_of_getLsbD_eq
  intro k hk
  simp only [encode, Instr.opcode, BitVec.getLsbD_extractLsb', BitVec.getLsbD_append]
  interval_cases k <;> simp

theorem sti : ∀ sr off, Statement (.sti sr off) := by
  intros
  apply BitVec.eq_of_getLsbD_eq
  intro k hk
  simp only [encode, Instr.opcode, BitVec.getLsbD_extractLsb', BitVec.getLsbD_append]
  interval_cases k <;> simp

theorem jmp : ∀ ignHi base ignLo, Statement (.jmp ignHi base ignLo) := by
  intros
  apply BitVec.eq_of_getLsbD_eq
  intro k hk
  simp only [encode, Instr.opcode, BitVec.getLsbD_extractLsb', BitVec.getLsbD_append]
  interval_cases k <;> simp

theorem unimplemented1101 : ∀ ign, Statement (.unimplemented1101 ign) := by
  intros
  apply BitVec.eq_of_getLsbD_eq
  intro k hk
  simp only [encode, Instr.opcode, BitVec.getLsbD_extractLsb', BitVec.getLsbD_append]
  interval_cases k <;> simp

theorem lea : ∀ dr off, Statement (.lea dr off) := by
  intros
  apply BitVec.eq_of_getLsbD_eq
  intro k hk
  simp only [encode, Instr.opcode, BitVec.getLsbD_extractLsb', BitVec.getLsbD_append]
  interval_cases k <;> simp

theorem trapGetc : ∀ ign, Statement (.trapGetc ign) := by
  intros
  apply BitVec.eq_of_getLsbD_eq
  intro k hk
  simp only [encode, encodeTrap, Instr.opcode, BitVec.getLsbD_extractLsb', BitVec.getLsbD_append]
  interval_cases k <;> simp

theorem trapOut : ∀ ign, Statement (.trapOut ign) := by
  intros
  apply BitVec.eq_of_getLsbD_eq
  intro k hk
  simp only [encode, encodeTrap, Instr.opcode, BitVec.getLsbD_extractLsb', BitVec.getLsbD_append]
  interval_cases k <;> simp

theorem trapPuts : ∀ ign, Statement (.trapPuts ign) := by
  intros
  apply BitVec.eq_of_getLsbD_eq
  intro k hk
  simp only [encode, encodeTrap, Instr.opcode, BitVec.getLsbD_extractLsb', BitVec.getLsbD_append]
  interval_cases k <;> simp

theorem trapIn : ∀ ign, Statement (.trapIn ign) := by
  intros
  apply BitVec.eq_of_getLsbD_eq
  intro k hk
  simp only [encode, encodeTrap, Instr.opcode, BitVec.getLsbD_extractLsb', BitVec.getLsbD_append]
  interval_cases k <;> simp

theorem trapPutsp : ∀ ign, Statement (.trapPutsp ign) := by
  intros
  apply BitVec.eq_of_getLsbD_eq
  intro k hk
  simp only [encode, encodeTrap, Instr.opcode, BitVec.getLsbD_extractLsb', BitVec.getLsbD_append]
  interval_cases k <;> simp

theorem trapHalt : ∀ ign, Statement (.trapHalt ign) := by
  intros
  apply BitVec.eq_of_getLsbD_eq
  intro k hk
  simp only [encode, encodeTrap, Instr.opcode, BitVec.getLsbD_extractLsb', BitVec.getLsbD_append]
  interval_cases k <;> simp

theorem trapUnknown : ∀ ign vect, Statement (.trapUnknown ign vect) := by
  intros
  apply BitVec.eq_of_getLsbD_eq
  intro k hk
  simp only [encode, encodeTrap, Instr.opcode, BitVec.getLsbD_extractLsb', BitVec.getLsbD_append]
  interval_cases k <;> simp

end Laws.OpcodeField

end Sys2Proof
end

