-- ==== Sys2Proof/Laws/Streams.lean ====
section
/-! SUPPORT. Everything an operation on the streams can do: the waiting of the input source, one inversion lemma for each outcome of `sinkTake`, `outBytes`
and `scanString`, and the equations of a sink that never fails. -/

namespace Sys2Proof.Machine

/-! ## The input source -/

/-- A source that can answer is not waited for. -/
theorem InputSource.await_of_ready {x : InputSource} (h : ∀ rest, x.answer ≠ .notYet rest) : x.await = some x := by
  cases x with
  | byte b rest => rfl
  | late rest => exact absurd rfl (h rest)
  | error rest => rfl
  | ended => rfl
  | silent => exact absurd rfl (h .silent)
  | endless k w =>
    have hw : ¬w < endlessDelay k := fun hlt => h (.endless k (w + 1)) (by simp [InputSource.answer, hlt])
    simp only [InputSource.await, Nat.max_eq_left (Nat.le_of_not_lt hw)]

/-- Waiting passes over one move at a time. -/
theorem InputSource.await_of_notYet {x rest : InputSource} (h : x.answer = .notYet rest) : x.await = rest.await := by
  cases x with
  | byte b r => cases h
  | late r => cases h; rfl
  | error r => cases h
  | ended => cases h
  | silent => cases h; rfl
  | endless k w =>
    simp only [InputSource.answer] at h
    split at h
    · rename_i hlt
      cases h
      simp only [InputSource.await]
      congr 2
      omega
    · cases h

/-- What has been waited for can answer. -/
theorem InputSource.await_ready {x y : InputSource} (h : x.await = some y) : ∀ rest, y.answer ≠ .notYet rest := by
  induction x with
  | byte b r => cases h; intro rest hr; cases hr
  | late r ih => exact ih h
  | error r => cases h; intro rest hr; cases hr
  | ended => cases h; intro rest hr; cases hr
  | silent => cases h
  | endless k w =>
    cases h
    intro rest hr
    rw [InputSource.answer, if_neg (by omega)] at hr
    cases hr

/-! ## What an operation on the sink leaves alone -/

/-- `t` differs from `s` in the accepted events and the answers left, and in nothing else. -/
def SinkOnly (s t : State) : Prop := ∃ as out, t = (s.withSinkAnswers as).withOutput out

theorem SinkOnly.refl (s : State) : SinkOnly s s := ⟨s.sinkAnswers, s.output, rfl⟩

theorem SinkOnly.trans {s t u : State} (h : SinkOnly s t) (h' : SinkOnly t u) : SinkOnly s u := by
  obtain ⟨as, out, rfl⟩ := h
  obtain ⟨as', out', rfl⟩ := h'
  exact ⟨as', out', rfl⟩

theorem SinkOnly.readReg {s t : State} (h : SinkOnly s t) (r : RegIdx) : t.readReg r = s.readReg r := by
  obtain ⟨as, out, rfl⟩ := h
  rfl

theorem SinkOnly.readCell {s t : State} (h : SinkOnly s t) (a : Word) : t.readCell a = s.readCell a := by
  obtain ⟨as, out, rfl⟩ := h
  rfl

theorem SinkOnly.fields {s t : State} (h : SinkOnly s t) :
    t.regs = s.regs ∧ t.pc = s.pc ∧ t.cond = s.cond ∧ t.run = s.run ∧ t.mem = s.mem ∧ t.input = s.input ∧ t.io = s.io := by
  obtain ⟨as, out, rfl⟩ := h
  exact ⟨rfl, rfl, rfl, rfl, rfl, rfl, rfl⟩

/-! ## One operation on the sink -/

theorem State.sinkTake_of_cannot_fail {s : State} (e : SinkEvent) (h : s.io.sinkCanFail = false) :
    s.sinkTake e = .accepted (s.withOutput (s.output ++ [e])) := by
  simp [State.sinkTake, h]

theorem State.sinkTake_accepted {s t : State} {e : SinkEvent} (h : s.sinkTake e = .accepted t) :
    t.output = s.output ++ [e] ∧ SinkOnly s t ∧ (t.sinkAnswers = s.sinkAnswers ∨ s.sinkAnswers = .ok :: t.sinkAnswers) := by
  unfold State.sinkTake at h
  split at h
  · split at h
    · cases h
    · rename_i as has
      cases h
      exact ⟨rfl, ⟨as, _, rfl⟩, .inr has⟩
    · cases h
      exact ⟨rfl, ⟨s.sinkAnswers, _, rfl⟩, .inl rfl⟩
  · cases h
    exact ⟨rfl, ⟨s.sinkAnswers, _, rfl⟩, .inl rfl⟩

theorem State.sinkTake_failed {s t : State} {e : SinkEvent} (h : s.sinkTake e = .failed t) :
    s.io.sinkCanFail = true ∧ t.output = s.output ∧ SinkOnly s t ∧ s.sinkAnswers = .fail :: t.sinkAnswers := by
  unfold State.sinkTake at h
  split at h
  · rename_i hcan
    split at h
    · rename_i as has
      cases h
      exact ⟨hcan, rfl, ⟨as, s.output, rfl⟩, has⟩
    · cases h
    · cases h
  · cases h

/-! ## A run of bytes -/

theorem State.outBytes_of_cannot_fail {s : State} (bs : List Byte) (h : s.io.sinkCanFail = false) :
    s.outBytes bs = .accepted (s.withOutput (s.output ++ bs.map .byte)) := by
  induction bs generalizing s with
  | nil => simp [State.outBytes, State.withOutput]
  | cons b bs ih =>
    simp only [State.outBytes, State.outByte, State.sinkTake_of_cannot_fail _ h]
    rw [ih (by simpa using h)]
    simp [State.withOutput]

theorem State.outBytes_accepted {s t : State} {bs : List Byte} (h : s.outBytes bs = .accepted t) :
    t.output = s.output ++ bs.map .byte ∧ SinkOnly s t := by
  induction bs generalizing s with
  | nil =>
    cases h
    exact ⟨by simp, SinkOnly.refl _⟩
  | cons b bs ih =>
    simp only [State.outBytes] at h
    split at h
    · rename_i s' hs
      obtain ⟨ho, hk, -⟩ := State.sinkTake_accepted hs
      obtain ⟨ho', hk'⟩ := ih h
      exact ⟨by simp [ho', ho], hk.trans hk'⟩
    · cases h

/-- "Bytes already accepted stay in the output, no further byte is written" (44_trap.md rule R217). -/
theorem State.outBytes_failed {s t : State} {bs : List Byte} (h : s.outBytes bs = .failed t) :
    s.io.sinkCanFail = true ∧ SinkOnly s t ∧ ∃ k, k < bs.length ∧ t.output = s.output ++ (bs.take k).map .byte := by
  induction bs generalizing s with
  | nil => cases h
  | cons b bs ih =>
    simp only [State.outBytes] at h
    split at h
    · rename_i s' hs
      obtain ⟨ho, hk, -⟩ := State.sinkTake_accepted hs
      obtain ⟨hc, hk', k, hlt, ho'⟩ := ih h
      exact ⟨by rwa [hk.fields.2.2.2.2.2.2] at hc, hk.trans hk', k + 1, by simp [hlt], by simp [ho', ho]⟩
    · rename_i s' hs
      cases h
      obtain ⟨hc, ho, hk, -⟩ := State.sinkTake_failed hs
      exact ⟨hc, hk, 0, by simp, by simp [ho]⟩

/-- A sink that accepts `k` operations and refuses the next: the first `k` bytes reach the output, and only they. -/
theorem State.outBytes_cut {s : State} {bs : List Byte} {k : Nat} {as : List SinkAnswer} (hsink : s.io.sinkCanFail = true)
    (has : s.sinkAnswers = List.replicate k .ok ++ .fail :: as) (hk : k < bs.length) :
    s.outBytes bs = .failed ((s.withSinkAnswers as).withOutput (s.output ++ (bs.take k).map .byte)) := by
  induction bs generalizing s k with
  | nil => simp at hk
  | cons b bs ih =>
    cases k with
    | zero =>
      have has' : s.sinkAnswers = .fail :: as := has
      simp [State.outBytes, State.outByte, State.sinkTake, hsink, has', State.withOutput, State.withSinkAnswers]
    | succ k =>
      have has' : s.sinkAnswers = .ok :: (List.replicate k .ok ++ .fail :: as) := has
      simp only [State.outBytes, State.outByte, State.sinkTake, hsink, if_true, has']
      rw [ih (k := k) (by simpa using hsink) rfl (by simpa using hk)]
      simp [State.withOutput, State.withSinkAnswers]

/-- A sink that accepts as many operations as there are bytes. -/
theorem State.outBytes_all {s : State} {bs : List Byte} {as : List SinkAnswer} (hsink : s.io.sinkCanFail = true)
    (has : s.sinkAnswers = List.replicate bs.length .ok ++ as) :
    s.outBytes bs = .accepted ((s.withSinkAnswers as).withOutput (s.output ++ bs.map .byte)) := by
  induction bs generalizing s with
  | nil =>
    have has' : s.sinkAnswers = as := by simpa using has
    subst has'
    simp [State.outBytes, State.withOutput, State.withSinkAnswers]
  | cons b bs ih =>
    have has' : s.sinkAnswers = .ok :: (List.replicate bs.length .ok ++ as) := by simpa [List.replicate_succ] using has
    simp only [State.outBytes, State.outByte, State.sinkTake, hsink, if_true, has']
    rw [ih (by simpa using hsink) rfl]
    simp [State.withOutput, State.withSinkAnswers]

/-! ## The scan of a string -/

theorem next_cell (p : Word) (k : Nat) : p + 1#16 + BitVec.ofNat 16 k = p + BitVec.ofNat 16 (k + 1) := by
  rw [BitVec.add_assoc, Nat.add_comm k 1, BitVec.ofNat_add]

/-- The cells of a string, taken apart at its first word. -/
theorem cells_cons {s : State} {p w : Word} {ws : List Word}
    (h : ∀ k (hk : k < (w :: ws).length), s.readCell (p + BitVec.ofNat 16 k) = (w :: ws)[k]) :
    s.readCell p = w ∧ ∀ k (hk : k < ws.length), s.readCell (p + 1#16 + BitVec.ofNat 16 k) = ws[k] := by
  constructor
  · have h0 := h 0 (by simp)
    rwa [show p + BitVec.ofNat 16 0 = p by simp] at h0
  · intro k hk
    rw [next_cell]
    exact h (k + 1) (by simpa using hk)

/-- The scan of a terminated string, its words `ws` and then a zero word, with a sink that never fails. -/
theorem scanString_of_terminated (emit : Word → List Byte) {fuel : Nat} {p : Word} {s : State} {ws : List Word}
    (hsink : s.io.sinkCanFail = false) (hfuel : ws.length < fuel) (hne : ∀ w ∈ ws, w ≠ 0#16)
    (hws : ∀ k (h : k < ws.length), s.readCell (p + BitVec.ofNat 16 k) = ws[k])
    (hend : s.readCell (p + BitVec.ofNat 16 ws.length) = 0#16) :
    scanString emit fuel p s = .ended (s.withOutput (s.output ++ (ws.flatMap emit).map .byte)) := by
  induction ws generalizing fuel p s with
  | nil =>
    obtain ⟨n, rfl⟩ : ∃ n, fuel = n + 1 := ⟨fuel - 1, by simp at hfuel; omega⟩
    have : s.readCell p = 0#16 := by simpa using hend
    simp [scanString, this, State.withOutput]
  | cons w ws ih =>
    obtain ⟨n, rfl⟩ : ∃ n, fuel = n + 1 := ⟨fuel - 1, by simp at hfuel; omega⟩
    obtain ⟨h0, htail⟩ := cells_cons hws
    simp only [scanString, h0, hne w (by simp), if_false, State.outBytes_of_cannot_fail _ hsink]
    rw [ih (by simpa using hsink) (by simpa using hfuel) (fun v hv => hne v (by simp [hv])) (by exact htail)]
    · simp [State.withOutput]
    · rw [next_cell, State.readCell_withOutput]
      simpa using hend

/-- The scan of a string whose words are `ws`, with a sink that accepts `k` operations and refuses the next. -/
theorem scanString_cut (emit : Word → List Byte) (hemit : ∀ w, emit w ≠ []) {fuel : Nat} {p : Word} {s : State}
    {ws : List Word} {k : Nat} {as : List SinkAnswer} (hsink : s.io.sinkCanFail = true)
    (has : s.sinkAnswers = List.replicate k .ok ++ .fail :: as) (hfuel : k < fuel) (hne : ∀ w ∈ ws, w ≠ 0#16)
    (hws : ∀ j (h : j < ws.length), s.readCell (p + BitVec.ofNat 16 j) = ws[j]) (hk : k < (ws.flatMap emit).length) :
    scanString emit fuel p s =
      .failed ((s.withSinkAnswers as).withOutput (s.output ++ ((ws.flatMap emit).take k).map .byte)) := by
  induction ws generalizing fuel p s k with
  | nil => simp at hk
  | cons w ws ih =>
    obtain ⟨n, rfl⟩ : ∃ n, fuel = n + 1 := ⟨fuel - 1, by omega⟩
    obtain ⟨h0, htail⟩ := cells_cons hws
    have hpos : 0 < (emit w).length := List.length_pos_of_ne_nil (hemit w)
    simp only [scanString, h0, hne w (by simp), if_false]
    rw [List.flatMap_cons, List.length_append] at hk
    by_cases hlt : k < (emit w).length
    · rw [State.outBytes_cut hsink has hlt, List.flatMap_cons, List.take_append_of_le_length (by omega)]
    · obtain ⟨m, rfl⟩ : ∃ m, k = (emit w).length + m := ⟨k - (emit w).length, by omega⟩
      rw [List.replicate_add, List.append_assoc] at has
      simp only [State.outBytes_all hsink has]
      rw [ih (fuel := n) (k := m) (by simpa using hsink) rfl (by omega) (fun v hv => hne v (by simp [hv]))
        (by exact htail) (by omega)]
      simp [State.withOutput, State.withSinkAnswers, List.flatMap_cons, List.take_append]

/-- The scan of a terminated string, with a sink that accepts as many operations as the string has bytes. -/
theorem scanString_all (emit : Word → List Byte) {fuel : Nat} {p : Word} {s : State} {ws : List Word}
    {as : List SinkAnswer} (hsink : s.io.sinkCanFail = true)
    (has : s.sinkAnswers = List.replicate (ws.flatMap emit).length .ok ++ as) (hfuel : ws.length < fuel)
    (hne : ∀ w ∈ ws, w ≠ 0#16) (hws : ∀ j (h : j < ws.length), s.readCell (p + BitVec.ofNat 16 j) = ws[j])
    (hend : s.readCell (p + BitVec.ofNat 16 ws.length) = 0#16) :
    scanString emit fuel p s = .ended ((s.withSinkAnswers as).withOutput (s.output ++ (ws.flatMap emit).map .byte)) := by
  induction ws generalizing fuel p s with
  | nil =>
    obtain ⟨n, rfl⟩ : ∃ n, fuel = n + 1 := ⟨fuel - 1, by simp at hfuel; omega⟩
    have h0 : s.readCell p = 0#16 := by simpa using hend
    have has' : s.sinkAnswers = as := by simpa using has
    subst has'
    simp [scanString, h0, State.withOutput, State.withSinkAnswers]
  | cons w ws ih =>
    obtain ⟨n, rfl⟩ : ∃ n, fuel = n + 1 := ⟨fuel - 1, by simp at hfuel; omega⟩
    obtain ⟨h0, htail⟩ := cells_cons hws
    rw [List.flatMap_cons, List.length_append, List.replicate_add, List.append_assoc] at has
    simp only [scanString, h0, hne w (by simp), if_false, State.outBytes_all hsink has]
    rw [ih (by simpa using hsink) rfl (by simpa using hfuel) (fun v hv => hne v (by simp [hv])) (by exact htail)]
    · simp [State.withOutput, State.withSinkAnswers, List.flatMap_cons]
    · rw [next_cell]
      exact hend

theorem scanString_ended {emit : Word → List Byte} {fuel : Nat} {p : Word} {s t : State}
    (h : scanString emit fuel p s = .ended t) :
    SinkOnly s t ∧ ∃ ws : List Word, t.output = s.output ++ (ws.flatMap emit).map .byte ∧ ∃ a, s.readCell a = 0#16 := by
  induction fuel generalizing p s with
  | zero => cases h
  | succ n ih =>
    simp only [scanString] at h
    split at h
    · rename_i hz
      cases h
      exact ⟨SinkOnly.refl _, [], by simp, p, hz⟩
    · split at h
      · rename_i s' hs
        obtain ⟨ho, hk⟩ := State.outBytes_accepted hs
        obtain ⟨hk', ws, ho', a, ha⟩ := ih h
        exact ⟨hk.trans hk', s.readCell p :: ws, by simp [ho', ho], a, by rw [← hk.readCell a, ha]⟩
      · cases h

theorem scanString_failed {emit : Word → List Byte} {fuel : Nat} {p : Word} {s t : State}
    (h : scanString emit fuel p s = .failed t) :
    s.io.sinkCanFail = true ∧ SinkOnly s t ∧ ∃ bs : List Byte, t.output = s.output ++ bs.map .byte := by
  induction fuel generalizing p s with
  | zero => cases h
  | succ n ih =>
    simp only [scanString] at h
    split at h
    · cases h
    · split at h
      · rename_i s' hs
        obtain ⟨ho, hk⟩ := State.outBytes_accepted hs
        obtain ⟨hc, hk', bs, ho'⟩ := ih h
        exact ⟨by rwa [hk.fields.2.2.2.2.2.2] at hc, hk.trans hk', (emit (s.readCell p)) ++ bs, by simp [ho', ho]⟩
      · rename_i s' hs
        cases h
        obtain ⟨hc, hk, k, -, ho⟩ := State.outBytes_failed hs
        exact ⟨hc, hk, _, ho⟩

/-- A scan that meets no end within its fuel has read that many cells, none of them zero. -/
theorem scanString_endless {emit : Word → List Byte} {fuel : Nat} {p : Word} {s : State}
    (h : scanString emit fuel p s = .endless) : ∀ k, k < fuel → s.readCell (p + BitVec.ofNat 16 k) ≠ 0#16 := by
  induction fuel generalizing p s with
  | zero => intro k hk; omega
  | succ n ih =>
    simp only [scanString] at h
    split at h
    · cases h
    · rename_i hz
      split at h
      · rename_i s' hs
        intro k hk
        cases k with
        | zero => simpa using hz
        | succ k =>
          have hk' := ih h k (by omega)
          rw [(State.outBytes_accepted hs).2.readCell, BitVec.add_assoc, ← BitVec.ofNat_add, Nat.add_comm 1 k] at hk'
          exact hk'
      · cases h

/-- With enough fuel to see every cell, an endless scan means that no cell of memory is zero (rule R220). -/
theorem scanString_endless_no_zero {emit : Word → List Byte} {fuel : Nat} {p : Word} {s : State}
    (hfuel : 65536 ≤ fuel) (h : scanString emit fuel p s = .endless) (a : Word) : s.readCell a ≠ 0#16 := by
  have hk := scanString_endless h (a - p).toNat (by have := (a - p).isLt; omega)
  rwa [BitVec.ofNat_toNat, BitVec.setWidth_eq, BitVec.add_comm, BitVec.sub_add_cancel] at hk

end Sys2Proof.Machine
end

