-- ==== Sys2Proof/Laws/Services.lean ====
section
/-! SUPPORT. Everything the shared parts of a service can do: the closing flush, the taking of an input answer, the prompt,
and a whole string service. -/

namespace Sys2Proof.Machine

/-! ## With a sink that never fails -/

theorem State.outFlush_of_cannot_fail {s : State} (h : s.io.sinkCanFail = false) :
    s.outFlush = .accepted (s.withOutput (s.output ++ [.flush])) :=
  State.sinkTake_of_cannot_fail _ h

theorem State.flushOrFail_of_cannot_fail {s : State} (ir : Word) (h : s.io.sinkCanFail = false) :
    s.flushOrFail ir = s.withOutput (s.output ++ [.flush]) := by
  simp [State.flushOrFail, State.outFlush_of_cannot_fail h]

theorem promptThenTake_of_cannot_fail {s : State} (ir : Word) (answer : InputAnswer) (h : s.io.sinkCanFail = false) :
    promptThenTake ir answer s =
      (s.withOutput (s.output ++ s.io.inPrompt.map .byte ++ [.flush])).takeInput ir answer := by
  simp only [promptThenTake, State.outBytes_of_cannot_fail _ h]
  rw [State.outFlush_of_cannot_fail (by simpa using h)]
  rfl

theorem stringService_of_terminated (emit : Word → List Byte) (ir : Word) {s : State} {ws : List Word}
    (hsink : s.io.sinkCanFail = false) (hlen : ws.length < 65536) (hne : ∀ w ∈ ws, w ≠ 0#16)
    (hws : ∀ k (h : k < ws.length), s.readCell (s.readReg regR0 + BitVec.ofNat 16 k) = ws[k])
    (hend : s.readCell (s.readReg regR0 + BitVec.ofNat 16 ws.length) = 0#16) :
    stringService emit ir s = .next (s.withOutput (s.output ++ (ws.flatMap emit).map .byte ++ [.flush])) := by
  have hfuel : ws.length < scanFuel s := by unfold scanFuel; omega
  simp only [stringService, scanString_of_terminated emit hsink hfuel hne hws hend]
  rw [State.flushOrFail_of_cannot_fail _ (by simpa using hsink)]
  rfl

/-! ## In general -/

/-- The closing flush either reaches the output or ends the run in the fatal I/O error with nothing written. -/
theorem State.flushOrFail_cases (s : State) (ir : Word) :
    (SinkOnly s (s.flushOrFail ir) ∧ (s.flushOrFail ir).output = s.output ++ [.flush]) ∨
    (s.io.sinkCanFail = true ∧ ∃ t, SinkOnly s t ∧ t.output = s.output ∧ s.flushOrFail ir = t.failOutput ir) := by
  simp only [State.flushOrFail, State.outFlush]
  split
  · rename_i s' hs
    obtain ⟨ho, hk, -⟩ := State.sinkTake_accepted hs
    exact .inl ⟨hk, ho⟩
  · rename_i s' hs
    obtain ⟨hc, ho, hk, -⟩ := State.sinkTake_failed hs
    exact .inr ⟨hc, s', hk, ho, rfl⟩

/-- IN once the source can answer: the prompt and its flush reach the output and the answer is taken, or the sink fails
and nothing is read. -/
theorem promptThenTake_cases (ir : Word) (answer : InputAnswer) (s : State) :
    (∃ t, SinkOnly s t ∧ t.output = s.output ++ s.io.inPrompt.map .byte ++ [.flush] ∧
      promptThenTake ir answer s = t.takeInput ir answer) ∨
    (s.io.sinkCanFail = true ∧ ∃ t, SinkOnly s t ∧
      (∃ k, t.output = s.output ++ (s.io.inPrompt.take k).map .byte) ∧ promptThenTake ir answer s = t.failOutput ir) := by
  simp only [promptThenTake]
  split
  · rename_i s' hs
    obtain ⟨hc, hk, k, -, ho⟩ := State.outBytes_failed hs
    exact .inr ⟨hc, s', hk, ⟨k, ho⟩, rfl⟩
  · rename_i s' hs
    obtain ⟨ho, hk⟩ := State.outBytes_accepted hs
    split
    · rename_i s'' hs'
      obtain ⟨hc, ho', hk', -⟩ := State.sinkTake_failed hs'
      refine .inr ⟨by rwa [hk.fields.2.2.2.2.2.2] at hc, s'', hk.trans hk', ⟨s.io.inPrompt.length, ?_⟩, rfl⟩
      simp [ho', ho]
    · rename_i s'' hs'
      obtain ⟨ho', hk', -⟩ := State.sinkTake_accepted hs'
      exact .inl ⟨s'', hk.trans hk', by rw [ho', ho], rfl⟩

/-- A string service writes the bytes of some words and flushes; or the sink fails after some bytes; or it is endless, and
then no cell of memory is zero. -/
theorem stringService_cases (emit : Word → List Byte) (ir : Word) (s : State) :
    (∃ t, stringService emit ir s = .next t ∧ SinkOnly s t ∧
      ∃ ws : List Word, t.output = s.output ++ (ws.flatMap emit).map .byte ++ [.flush]) ∨
    (s.io.sinkCanFail = true ∧ ∃ t, stringService emit ir s = .next (t.failOutput ir) ∧ SinkOnly s t ∧
      ∃ bs : List Byte, t.output = s.output ++ bs.map .byte) ∨
    (stringService emit ir s = .fault .endlessString ∧ ∀ a, s.readCell a ≠ 0#16) := by
  simp only [stringService]
  split
  · rename_i s' hs
    obtain ⟨hk, ws, ho, -⟩ := scanString_ended hs
    rcases State.flushOrFail_cases s' ir with ⟨hk', ho'⟩ | ⟨hc, t, hk', ho', e⟩
    · exact .inl ⟨_, rfl, hk.trans hk', ws, by rw [ho', ho]⟩
    · refine .inr (.inl ⟨by rwa [hk.fields.2.2.2.2.2.2] at hc, t, by rw [e], hk.trans hk', ws.flatMap emit, ?_⟩)
      rw [ho', ho]
  · rename_i s' hs
    obtain ⟨hc, hk, bs, ho⟩ := scanString_failed hs
    exact .inr (.inl ⟨hc, s', rfl, hk, bs, ho⟩)
  · rename_i hs
    exact .inr (.inr ⟨rfl, scanString_endless_no_zero (by unfold scanFuel; omega) hs⟩)

end Sys2Proof.Machine
end

