-- ==== Sys2Proof/Laws/Step.lean ====
section
/-! SUPPORT. What a step is in each form of RUN, its inversion, what the host's `step()` waits for, and what `load`
keeps. -/

namespace Sys2Proof.Machine

theorem step_of_running {s : State} (h : s.run = .running) : step s = exec (decodeWord s.fetchWord) s.advancePc := by
  simp [step, h]

theorem step_of_stopped {s : State} (h : s.run ≠ .running) : step s = .next s := by
  unfold step
  split
  · contradiction
  · rfl
  · rfl

/-- A step that gives a next state either ran the decoded instruction or found the machine stopped. -/
theorem step_next_cases {s t : State} (h : step s = .next t) :
    (s.run = .running ∧ exec (decodeWord s.fetchWord) s.advancePc = .next t) ∨ (s.run ≠ .running ∧ t = s) := by
  by_cases hr : s.run = .running
  · exact .inl ⟨hr, by rwa [step_of_running hr] at h⟩
  · rw [step_of_stopped hr] at h
    cases h
    exact .inr ⟨hr, rfl⟩

theorem State.awaitInput_of_not_waiting {s : State} (h : ¬(s.run = .running ∧ mustWait (decodeWord s.fetchWord) s)) :
    s.awaitInput = some s := by
  unfold State.awaitInput
  split
  · rename_i hr
    rw [InputSource.await_of_ready fun rest ha => h ⟨hr.1, hr.2, rest, ha⟩]
    rfl
  · rfl

/-- The moves at which the source has nothing yet are passed over one by one. -/
theorem State.awaitInput_of_notYet {s : State} {rest : InputSource} (hr : s.run = .running)
    (hi : readsInput (decodeWord s.fetchWord) = true) (h : s.input.answer = .notYet rest) :
    s.awaitInput = (s.withInput rest).awaitInput := by
  have hr' : (s.withInput rest).run = .running := hr
  have hi' : readsInput (decodeWord (s.withInput rest).fetchWord) = true := hi
  unfold State.awaitInput
  rw [if_pos ⟨hr, hi⟩, if_pos ⟨hr', hi'⟩, InputSource.await_of_notYet h]
  rfl

/-- Storing an image changes memory alone, and keeps its canonical form. -/
theorem State.storeWords_frame (s : State) (ws : List Word) (origin : Word) :
    (∃ m, s.storeWords ws origin = s.withMem m) ∧ (Memory.wf s.mem → Memory.wf (s.storeWords ws origin).mem) := by
  induction ws generalizing s origin with
  | nil => exact ⟨⟨s.mem, rfl⟩, id⟩
  | cons w ws ih =>
    obtain ⟨⟨m, hm⟩, hwf⟩ := ih (s.writeCell origin w) (origin + 1#16)
    exact ⟨⟨m, by rw [State.storeWords, hm]; rfl⟩, fun h => hwf (memWrite_wf origin w h)⟩

end Sys2Proof.Machine
end

