-- ==== Sys2Proof/Laws/Traps.lean ====
section
/-! SUPPORT. Everything a TRAP can do, said once: the inversion lemma of the seven trap instructions. -/

namespace Sys2Proof.Machine

/-- How the cycle of a trap instruction `i` ends, from the state `s` after the fetch. -/
inductive TrapEnd (i : Instr) (s : State) : State → Prop where
  /-- OUT, PUTS, PUTSP: the output has grown and ends in a flush. -/
  | written (t : State) (kept : SinkOnly s t) (grown : ∃ evs, t.output = s.output ++ evs)
      (flushed : t.output.getLast? = some .flush) : TrapEnd i s t
  /-- HALT. -/
  | halted (t : State) (isHalt : ∃ g, i = .trapHalt g) (kept : SinkOnly s t) (grown : t.output = s.output ++ [.flush]) :
      TrapEnd i s (t.withRun .halted)
  /-- The sink failed. -/
  | outputFailed (t : State) (can : s.io.sinkCanFail = true)
      (writes : ∃ g, i = .trapOut g ∨ i = .trapPuts g ∨ i = .trapIn g ∨ i = .trapPutsp g ∨ i = .trapHalt g)
      (kept : SinkOnly s t) (grown : ∃ evs, t.output = s.output ++ evs) : TrapEnd i s (t.failOutput (encode i))
  /-- GETC and IN took an answer of the source, IN after its prompt and the flush. -/
  | answered (t : State) (answer : InputAnswer) (reads : readsInput i = true) (kept : SinkOnly s t)
      (grown : t = s ∨ ∃ evs, t.output = s.output ++ evs ∧ t.output.getLast? = some .flush)
      (ready : ∀ rest, answer ≠ .notYet rest) : TrapEnd i s (t.takeInput (encode i) answer)
  /-- GETC and IN wait. -/
  | held (rest : InputSource) (waits : mustWait i s) : TrapEnd i s (s.hold rest)
  /-- The unknown vector. -/
  | unknownVector (unknown : ∃ g v, i = .trapUnknown g v) :
      TrapEnd i s (s.raiseFatal (.unknownTrapVector (s.diagnostic (encode i))))

theorem flushOrFail_trapEnd {i : Instr} {s s' : State}
    (writes : ∃ g, i = .trapOut g ∨ i = .trapPuts g ∨ i = .trapIn g ∨ i = .trapPutsp g ∨ i = .trapHalt g)
    (kept : SinkOnly s s') (grown : ∃ evs, s'.output = s.output ++ evs) :
    TrapEnd i s (s'.flushOrFail (encode i)) := by
  obtain ⟨evs, ho⟩ := grown
  rcases State.flushOrFail_cases s' (encode i) with ⟨hk, ho'⟩ | ⟨hc, t, hk, ho', e⟩
  · exact .written _ (kept.trans hk) ⟨evs ++ [.flush], by rw [ho', ho, List.append_assoc]⟩ (by rw [ho']; simp)
  · rw [e]
    exact .outputFailed _ (by rwa [kept.fields.2.2.2.2.2.2] at hc) writes (kept.trans hk) ⟨evs, by rw [ho', ho]⟩

theorem stringService_trapEnd {i : Instr} {emit : Word → List Byte} {s t : State}
    (writes : ∃ g, i = .trapOut g ∨ i = .trapPuts g ∨ i = .trapIn g ∨ i = .trapPutsp g ∨ i = .trapHalt g)
    (h : stringService emit (encode i) s = .next t) : TrapEnd i s t := by
  rcases stringService_cases emit (encode i) s with ⟨u, hu, hk, ws, ho⟩ | ⟨hc, u, hu, hk, bs, ho⟩ | ⟨hu, -⟩ <;>
    rw [hu] at h <;> cases h
  · exact .written _ hk ⟨_, by rw [ho, List.append_assoc]⟩ (by rw [ho]; simp)
  · exact .outputFailed _ hc writes hk ⟨_, ho⟩

theorem trap_cases {i : Instr} (h : i.opcode = .trap) {s t : State} (he : exec i s = .next t) : TrapEnd i s t := by
  cases i <;> simp [Instr.opcode] at h
  case trapGetc g =>
    simp only [exec, execGetc, Host.Outcome.next.injEq] at he
    subst he
    cases hb : s.inByte with
    | byte b r => exact .answered _ _ rfl (.refl s) (.inl rfl) (by simp)
    | failed r => exact .answered _ _ rfl (.refl s) (.inl rfl) (by simp)
    | notYet r => exact .held r ⟨rfl, r, hb⟩
  case trapIn g =>
    have answered : ∀ a, (∀ r, a ≠ .notYet r) → TrapEnd (.trapIn g) s (promptThenTake (encode (.trapIn g)) a s) := by
      intro a ha
      rcases promptThenTake_cases (encode (.trapIn g)) a s with ⟨t, hk, ho, e⟩ | ⟨hc, t, hk, ⟨k, ho⟩, e⟩
      · rw [e]
        exact .answered _ _ rfl hk (.inr ⟨_, by rw [ho, List.append_assoc], by rw [ho]; simp⟩) ha
      · rw [e]
        exact .outputFailed _ hc ⟨g, by simp⟩ hk ⟨_, ho⟩
    simp only [exec, execIn] at he
    cases hb : s.inByte with
    | byte b r =>
      rw [hb] at he
      cases he
      exact answered _ (by simp)
    | failed r =>
      rw [hb] at he
      cases he
      exact answered _ (by simp)
    | notYet r =>
      rw [hb] at he
      cases he
      exact .held r ⟨rfl, r, hb⟩
  case trapOut g =>
    simp only [exec, execOut] at he
    split at he <;> rename_i s' hs <;> cases he
    · obtain ⟨ho, hk, -⟩ := State.sinkTake_accepted hs
      exact flushOrFail_trapEnd ⟨g, by simp⟩ hk ⟨_, ho⟩
    · obtain ⟨hc, ho, hk, -⟩ := State.sinkTake_failed hs
      exact .outputFailed _ hc ⟨g, by simp⟩ hk ⟨[], by simp [ho]⟩
  case trapHalt g =>
    simp only [exec, execHalt] at he
    split at he <;> rename_i s' hs <;> cases he
    · obtain ⟨ho, hk, -⟩ := State.sinkTake_accepted hs
      exact .halted _ ⟨g, rfl⟩ hk ho
    · obtain ⟨hc, ho, hk, -⟩ := State.sinkTake_failed hs
      exact .outputFailed _ hc ⟨g, by simp⟩ hk ⟨[], by simp [ho]⟩
  case trapPuts g => exact stringService_trapEnd ⟨g, by simp⟩ he
  case trapPutsp g => exact stringService_trapEnd ⟨g, by simp⟩ he
  case trapUnknown g v =>
    cases he
    exact .unknownVector ⟨g, v, rfl⟩

end Sys2Proof.Machine
end

