-- ==== Sys2Proof/Tests/Slice0.lean ====
section
/-! SUPPORT. Tests of single steps, from the vectors of spec/95_test_vectors.md (named by row: O1, B2, ...), and a witness
for the hypotheses of each statement. -/

namespace Sys2Proof.Tests

open Sys2Proof.Machine

/-! ## Helpers -/

/-- The state with the word `ir` at address `a` and the PC there. -/
def placed (a ir : Word) (s : State) : State := (s.withPc a).writeCell a ir

/-- What is read off the state after one step. -/
def after {α : Type} (s : State) (read : State → α) : Option α :=
  match step s with
  | .next t => some (read t)
  | .fault _ => none
  | .refused _ => none

/-- A state at 0x3000 with the word `ir`, after reset. -/
def at3000 (ir : Word) : State := placed 0x3000#16 ir State.reset

/-- With a prompt of the two bytes 3E 20 and an input source. -/
def prompting (ir : Word) (input : InputSource) : State :=
  { at3000 ir with io := ⟨[0x3E#8, 0x20#8], false⟩, input := input }

/-- With a sink that can fail and the answers it will give. -/
def failing (ir : Word) (answers : List SinkAnswer) : State :=
  { at3000 ir with io := ⟨[], true⟩, sinkAnswers := answers }

/-! ## WellFormed refuses an ill-formed term, and only that -/

theorem test_wf_refuses_service_vectors :
    [0x20#8, 0x21#8, 0x22#8, 0x23#8, 0x24#8, 0x25#8].all (fun v => !(Instr.trapUnknown 0#4 v).wf) = true := by decide

theorem test_wf_admits_other_vectors :
    [0x00#8, 0x1F#8, 0x26#8, 0xFF#8].all (fun v => (Instr.trapUnknown 0#4 v).wf) = true := by decide

/-! ## Decoding: words written out from the formats of rule R83 (95_test_vectors.md section 2.0) -/

theorem test_decode_operate :
    decodeWord 0b0001_010_000_0_11_001#16 = .addReg 2#3 0#3 3#2 1#3 ∧
    decodeWord 0b0001_000_000_1_10000#16 = .addImm 0#3 0#3 0b10000#5 ∧
    decodeWord 0b0101_011_001_0_00_010#16 = .andReg 3#3 1#3 0#2 2#3 ∧
    decodeWord 0b0101_010_011_1_01111#16 = .andImm 2#3 3#3 15#5 ∧
    decodeWord 0b1001_100_101_000000#16 = .not 4#3 5#3 0#6 := by decide

theorem test_decode_control :
    decodeWord 0b0000_1_0_1_100000000#16 = .br true false true 0x100#9 ∧
    decodeWord 0b1100_111_011_111111#16 = .jmp 7#3 3#3 0x3F#6 ∧
    decodeWord 0b0100_1_10000000000#16 = .jsr 0x400#11 ∧
    decodeWord 0b0100_0_11_010_111111#16 = .jsrr 3#2 2#3 0x3F#6 := by decide

theorem test_decode_load_store :
    decodeWord 0b0010_001_000000010#16 = .ld 1#3 2#9 ∧
    decodeWord 0b1010_001_000100100#16 = .ldi 1#3 0x24#9 ∧
    decodeWord 0b0110_010_001_111111#16 = .ldr 2#3 1#3 0x3F#6 ∧
    decodeWord 0b1110_000_111111110#16 = .lea 0#3 0x1FE#9 ∧
    decodeWord 0b0011_011_111111111#16 = .st 3#3 0x1FF#9 ∧
    decodeWord 0b1011_010_000000100#16 = .sti 2#3 4#9 ∧
    decodeWord 0b0111_000_110_100000#16 = .str 0#3 6#3 0x20#6 := by decide

theorem test_decode_trap :
    decodeWord 0b1111_0000_00100000#16 = .trapGetc 0#4 ∧
    decodeWord 0b1111_0000_00100001#16 = .trapOut 0#4 ∧
    decodeWord 0b1111_0000_00100010#16 = .trapPuts 0#4 ∧
    decodeWord 0b1111_0000_00100011#16 = .trapIn 0#4 ∧
    decodeWord 0b1111_0000_00100100#16 = .trapPutsp 0#4 ∧
    decodeWord 0b1111_1111_00100101#16 = .trapHalt 15#4 ∧
    decodeWord 0b1111_0000_00011111#16 = .trapUnknown 0#4 0x1F#8 ∧
    decodeWord 0b1000_1111_00100101#16 = .unimplemented1000 0xF25#12 ∧
    decodeWord 0b1101_0001_00100011#16 = .unimplemented1101 0x123#12 := by decide

theorem test_decode_rejects_a_single_byte : decode [0x25#8] = .error .truncatedWord := by decide

theorem test_decode_table_word :
    decodeTableWord 16 0x1401 = some (.addReg 2#3 0#3 0#2 1#3) ∧ decodeTableWord 24 0x1401 = none := by decide

/-! ## Operate -/

/-- O2: signed overflow wraps, COND from the wrapped result. -/
theorem test_addReg_signed_overflow :
    after (((at3000 0x1401#16).writeReg 0#3 0x7FFF#16).writeReg 1#3 1#16) (fun t => (t.readReg 2#3, t.cond, t.pc)) =
      some (0x8000#16, .N, 0x3001#16) := by decide

/-- O5: one register in all three fields. -/
theorem test_addReg_same_register :
    after ((at3000 0x1241#16).writeReg 1#3 0x4000#16) (fun t => (t.readReg 1#3, t.cond)) = some (0x8000#16, .N) := by decide

/-- O8: the smallest immediate. -/
theorem test_addImm_smallest :
    after (at3000 0x1030#16) (fun t => (t.readReg 0#3, t.cond)) = some (0xFFF0#16, .N) := by decide

/-- O6: the largest immediate, carry lost. -/
theorem test_addImm_carry_lost :
    after ((at3000 0x102F#16).writeReg 0#3 0xFFF1#16) (fun t => (t.readReg 0#3, t.cond)) = some (0x0000#16, .Z) := by decide

/-- O11. -/
theorem test_andReg :
    after (((at3000 0x5642#16).writeReg 1#3 0xF0F0#16).writeReg 2#3 0x3C3C#16) (fun t => (t.readReg 3#3, t.cond)) =
      some (0x3030#16, .P) := by decide

/-- O13: imm5 = 11111 keeps every bit. -/
theorem test_andImm_minus_one :
    after ((at3000 0x54BF#16).writeReg 2#3 0x8001#16) (fun t => (t.readReg 2#3, t.cond)) = some (0x8001#16, .N) := by decide

/-- O14: a positive immediate masks. -/
theorem test_andImm_masks :
    after ((at3000 0x54EF#16).writeReg 3#3 0xABCD#16) (fun t => (t.readReg 2#3, t.cond)) = some (0x000D#16, .P) := by decide

/-- O18: NOT with its ignored bits zero. -/
theorem test_not_ignored_bits :
    after ((at3000 0x9940#16).writeReg 5#3 0x00FF#16) (fun t => (t.readReg 4#3, t.cond)) = some (0xFF00#16, .N) := by decide

/-! ## Control transfer -/

/-- B2 and B3: BRz taken with Z, not with P. -/
theorem test_br_taken_and_not :
    after (at3000 0x0405#16) (·.pc) = some 0x3006#16 ∧
    after ((at3000 0x0405#16).withCond .P) (·.pc) = some 0x3001#16 := by decide

/-- B12: the target wraps downward. -/
theorem test_br_wraps : after (placed 0#16 0x0FFE#16 State.reset) (·.pc) = some 0xFFFF#16 := by decide

/-- M3: JMP with its ignored bits set. -/
theorem test_jmp : after ((at3000 0xCEFF#16).writeReg 3#3 0x4567#16) (·.pc) = some 0x4567#16 := by decide

/-- J4. -/
theorem test_jsr : after (placed 0x3010#16 0x4FFD#16 State.reset) (fun t => (t.readReg 7#3, t.pc)) =
    some (0x3011#16, 0x300E#16) := by decide

/-- J10: the base register is `ir[8:6]`. -/
theorem test_jsrr_base_field :
    after (((at3000 0x4100#16).writeReg 2#3 0x2222#16).writeReg 4#3 0x4444#16) (fun t => (t.readReg 7#3, t.pc)) =
      some (0x3001#16, 0x4444#16) := by decide

/-- J8: JSRR R7 continues at the post-fetch PC. -/
theorem test_jsrr_r7 : after ((at3000 0x41C0#16).writeReg 7#3 0x5000#16) (fun t => (t.readReg 7#3, t.pc)) =
    some (0x3001#16, 0x3001#16) := by decide

/-! ## Loads, stores and LEA -/

/-- L2: offset -1 reads the instruction itself. -/
theorem test_ld_own_word : after (at3000 0x23FF#16) (fun t => (t.readReg 1#3, t.cond)) = some (0x23FF#16, .P) := by decide

/-- L7: the source's LDI scenario. -/
theorem test_ldi :
    after (((at3000 0xA224#16).writeCell 0x3025#16 0x3333#16).writeCell 0x3333#16 0x1528#16)
      (fun t => (t.readReg 1#3, t.cond)) = some (0x1528#16, .P) := by decide

/-- L12: DR is the base register. -/
theorem test_ldr_base_is_dr :
    after (((at3000 0x6240#16).writeReg 1#3 0x4000#16).writeCell 0x4000#16 0x8001#16) (fun t => (t.readReg 1#3, t.cond)) =
      some (0x8001#16, .N) := by decide

/-- L10: the address wraps upward. -/
theorem test_ldr_wraps :
    after (((at3000 0x645F#16).writeReg 1#3 0xFFF0#16).writeCell 0x000F#16 1#16) (fun t => (t.readReg 2#3, t.cond)) =
      some (0x0001#16, .P) := by decide

/-- L15: an address with bit 15 set. -/
theorem test_lea_sets_cond : after (placed 0x7F00#16 0xE0FF#16 State.reset) (fun t => (t.readReg 0#3, t.cond)) =
    some (0x8000#16, .N) := by decide

/-- S3: the address wraps, COND stays. -/
theorem test_st_wraps :
    after ((placed 0xFFFE#16 0x3601#16 State.reset).writeReg 3#3 0x1234#16) (fun t => (t.readCell 0#16, t.pc, t.cond)) =
      some (0x1234#16, 0xFFFF#16, .Z) := by decide

/-- S5: the pointer cell is the instruction itself. -/
theorem test_sti_own_word :
    after ((at3000 0xB5FF#16).writeReg 2#3 0xCAFE#16) (fun t => (t.readCell 0xB5FF#16, t.readCell 0x3000#16)) =
      some (0xCAFE#16, 0xB5FF#16) := by decide

/-- S7: the address wraps downward. -/
theorem test_str_wraps :
    after (((at3000 0x71A0#16).writeReg 0#3 0x0A0A#16).writeReg 6#3 0x0010#16) (fun t => t.readCell 0xFFF0#16) =
      some 0x0A0A#16 := by decide

/-! ## Traps -/

/-- T1: the high byte is zeroed, COND is kept. -/
theorem test_getc :
    after ({ (at3000 0xF020#16).writeReg 0#3 0xFFFF#16 with input := .byte 0x61#8 (.byte 0x62#8 .ended), cond := .N })
      (fun t => (t.readReg 0#3, t.cond, t.input, t.output)) = some (0x0061#16, .N, .byte 0x62#8 .ended, []) := by decide

/-- T3: end of input. -/
theorem test_getc_end_of_input :
    after ((at3000 0xF020#16).writeReg 0#3 0x006B#16) (fun t => (t.readReg 0#3, t.run, t.pc)) =
      some (0x006B#16, .fatal (.inputFailed ⟨0xF020#16, 0x3000#16⟩), 0x3001#16) := by decide

/-- T4: the low byte only. -/
theorem test_out : after ((at3000 0xF021#16).writeReg 0#3 0x1248#16) (·.output) = some [.byte 0x48#8, .flush] := by decide

/-- T7: the scan wraps, the high byte is ignored. -/
theorem test_puts_wraps :
    after ((((at3000 0xF022#16).writeReg 0#3 0xFFFF#16).writeCell 0xFFFF#16 0x0041#16).writeCell 0#16 0x1242#16)
      (·.output) = some [.byte 0x41#8, .byte 0x42#8, .flush] := by decide

/-- T8: the prompt, its flush, then the byte. -/
theorem test_in :
    after (prompting 0xF023#16 (.byte 0x5A#8 .ended)) (fun t => (t.readReg 0#3, t.output, t.run)) =
      some (0x005A#16, [.byte 0x3E#8, .byte 0x20#8, .flush], .running) := by decide

/-- T9: the prompt is written before the failure. -/
theorem test_in_end_of_input :
    after (prompting 0xF023#16 .ended) (fun t => (t.output, t.run)) =
      some ([.byte 0x3E#8, .byte 0x20#8, .flush], .fatal (.inputFailed ⟨0xF023#16, 0x3000#16⟩)) := by decide

/-- T10. -/
theorem test_putsp :
    after ((((at3000 0xF024#16).writeReg 0#3 0x4000#16).writeCell 0x4000#16 0x6548#16).writeCell 0x4001#16 0x0079#16)
      (·.output) = some [.byte 0x48#8, .byte 0x65#8, .byte 0x79#8, .flush] := by decide

/-- T11: a zero low byte is written. -/
theorem test_putsp_zero_low_byte :
    after (((at3000 0xF024#16).writeReg 0#3 0x4000#16).writeCell 0x4000#16 0x4100#16) (·.output) =
      some [.byte 0x00#8, .byte 0x41#8, .flush] := by decide

/-- T13: HALT with ignored bits set. -/
theorem test_halt : after (at3000 0xF125#16) (fun t => (t.run, t.pc, t.output)) = some (.halted, 0x3001#16, [.flush]) := by
  decide

/-- 44_trap.md rule R218: a failing flush gives Fatal, not Halted. -/
theorem test_halt_flush_fails :
    after (failing 0xF025#16 [.fail]) (fun t => (t.run, t.output)) =
      some (.fatal (.outputFailed ⟨0xF025#16, 0x3000#16⟩), []) := by decide

/-- T15: the first vector past the services. -/
theorem test_unknown_vector :
    after (at3000 0xF026#16) (fun t => (t.run, t.pc)) =
      some (.fatal (.unknownTrapVector ⟨0xF026#16, 0x3000#16⟩), 0x3001#16) := by decide

/-! ## Unimplemented opcodes, terminal states, reset and load -/

/-- X3: the opcode is decoded before the low byte. -/
theorem test_unimplemented1000 :
    after (at3000 0x8F25#16) (fun t => (t.run, t.pc)) =
      some (.fatal (.unknownOpcode ⟨0x8F25#16, 0x3000#16⟩), 0x3001#16) := by decide

/-- X4: the post-fetch PC wraps. -/
theorem test_unimplemented1101 :
    after (placed 0xFFFF#16 0xD123#16 State.reset) (fun t => (t.run, t.pc)) =
      some (.fatal (.unknownOpcode ⟨0xD123#16, 0xFFFF#16⟩), 0x0000#16) := by decide

/-- X5. -/
theorem test_halted_is_sticky : after ((at3000 0x1401#16).withRun .halted) (fun t => (t.run, t.pc)) =
    some (.halted, 0x3000#16) := by decide

/-- Z2: the default memory is a branch that is never taken. -/
theorem test_reset_step : after State.reset (fun t => (t.pc, t.cond, t.run)) = some (0x3001#16, .Z, .running) := by decide

/-- Z4: a load wraps. -/
theorem test_load_wraps :
    (State.reset.load [0xAAAA#16, 0xBBBB#16, 0xCCCC#16] 0xFFFE#16).map
      (fun t => (t.readCell 0xFFFE#16, t.readCell 0xFFFF#16, t.readCell 0#16, t.pc)) =
      some (0xAAAA#16, 0xBBBB#16, 0xCCCC#16, 0xFFFE#16) := by decide

/-- Writing zero takes a cell out of the list. -/
theorem test_memory_form : memWrite (memWrite [] 5#16 0x0102#16) 5#16 0#16 = [] ∧
    memWrite (memWrite [] 5#16 0x0100#16) 3#16 0x0002#16 = [(6, 2#8), (11, 1#8)] := by decide

/-! ## A memory without a zero cell (44_trap.md rule R220) -/

/-- The cells from `a` on, `n` of them, each with the word 0x0001. -/
def onesFrom (a n : Nat) : Memory := (List.range' a n).map (fun k => (2 * k, 0x01#8))

theorem memReadByte_onesFrom {a n k : Nat} (h : a ≤ k) (h' : k < a + n) : memReadByte (onesFrom a n) (2 * k) = 0x01#8 := by
  induction n generalizing a with
  | zero => omega
  | succ n ih =>
    by_cases e : a = k
    · simp [onesFrom, List.range'_succ, memReadByte, e]
    · have := ih (a := a + 1) (by omega) (by omega)
      simp only [onesFrom] at this
      simp [onesFrom, List.range'_succ, memReadByte, e, this]

theorem memRead_onesFrom (a : Word) : memRead (onesFrom 0 65536) a ≠ 0#16 := by
  intro h
  have hlow := congrArg (fun w : Word => w.getLsbD 0) h
  simp only [memRead, joinBytes, BitVec.getLsbD_append] at hlow
  rw [memReadByte_onesFrom (Nat.zero_le _) (by simpa using a.isLt)] at hlow
  simp at hlow

/-- A state at a PUTS word in a memory without a zero cell, with a sink that never fails. -/
def unterminated : State := placed 0x3000#16 0xF022#16 (State.reset.withMem (onesFrom 0 65536))

theorem unterminated_no_zero (a : Word) : unterminated.readCell a ≠ 0#16 := by
  unfold unterminated placed
  rw [State.readCell_writeCell]
  split
  · decide
  · exact memRead_onesFrom a

theorem unterminated_fields : unterminated.run = .running ∧ unterminated.io.sinkCanFail = false := by
  simp [unterminated, placed, State.reset, State.resetWith, Params.default]

theorem puts_never_completes {s : State} {g : BitVec 4} (hr : s.run = .running) (hw : decodeWord s.fetchWord = .trapPuts g)
    (hs : s.io.sinkCanFail = false) (hz : ∀ a, s.readCell a ≠ 0#16) : step s = .fault .endlessString := by
  rw [step_of_running hr, hw]
  show stringService putsBytes (encode (.trapPuts g)) s.advancePc = _
  rcases stringService_cases putsBytes (encode (.trapPuts g)) s.advancePc with ⟨t, h, -⟩ | ⟨hc, -⟩ | ⟨h, -⟩
  · unfold stringService at h
    split at h
    · rename_i s' h'
      obtain ⟨-, -, -, a, ha⟩ := scanString_ended h'
      exact absurd ha (hz a)
    · rename_i s' h'
      have hc : s.io.sinkCanFail = true := (scanString_failed h').1
      simp [hs] at hc
    · cases h
  · have hc : s.io.sinkCanFail = true := hc
    simp [hs] at hc
  · exact h

theorem unterminated_word : decodeWord unterminated.fetchWord = .trapPuts 0#4 := by
  simp only [State.fetchWord, unterminated, placed, State.pc_writeCell, State.pc_withPc, State.readCell_writeCell_self]
  decide

/-- T18: the cycle never completes. -/
theorem test_unterminated_string_never_completes : step unterminated = .fault .endlessString :=
  puts_never_completes unterminated_fields.1 unterminated_word unterminated_fields.2 unterminated_no_zero

/-- The host's `step()` on a GETC that waits twice (rule R126): R0 and PC of the state it returns. -/
theorem test_host_step_waits :
    ((prompting 0xF020#16 (.late (.late (.byte 0x41#8 .ended)))).hostStep.map fun r => (r.1.readReg 0#3, r.1.pc, r.2)) =
      some (0x0041#16, 0x3001#16, .running) := by decide

/-! ## Witnesses: a state and operands that meet the hypotheses of each statement -/

theorem witness_DecodeEncodeRoundTrip : (Instr.trapUnknown 15#4 0x26#8).wf = true ∧ (Instr.br true false true 0x1FF#9).wf = true := by
  decide

/-- One vector for each clause, and both ends of the two ranges of unknown vectors. -/
theorem witness_TrapVectorDispatch :
    (0x20#8).toNat = 0x20 ∧ (0x21#8).toNat = 0x21 ∧ (0x22#8).toNat = 0x22 ∧ (0x23#8).toNat = 0x23 ∧
    (0x24#8).toNat = 0x24 ∧ (0x25#8).toNat = 0x25 ∧ (0x00#8).toNat < 0x20 ∧ (0x1F#8).toNat < 0x20 ∧
    0x25 < (0x26#8).toNat ∧ 0x25 < (0xFF#8).toNat := by decide

/-- A service that completes, one that ends in a fatal error, one that hangs, an unknown vector, and an opcode without a
handler. -/
theorem witness_IgnoredBitsChangeNothing :
    Instr.trapOut ∈ [Instr.trapGetc, Instr.trapOut, Instr.trapPuts, Instr.trapIn, Instr.trapPutsp, Instr.trapHalt] ∧
    (∃ v, (fun ign => Instr.trapUnknown ign 0x26#8) = fun ign => Instr.trapUnknown ign v) ∧
    Instr.unimplemented1101 ∈ [Instr.unimplemented1000, Instr.unimplemented1101] ∧ State.reset.run = .running ∧
    (∃ t, exec (.trapOut 3#4) State.reset = .next t) ∧ (∃ t, exec (.trapGetc 3#4) State.reset = .next t) ∧
    (∃ t, exec (.trapUnknown 3#4 0x26#8) State.reset = .next t) ∧
    (∃ t, exec (.unimplemented1101 3#12) State.reset = .next t) ∧
    unterminated.advancePc.run = .running ∧ exec (.trapPuts 0#4) unterminated.advancePc = .fault .endlessString :=
  ⟨by simp, ⟨_, rfl⟩, by simp, rfl, ⟨_, rfl⟩, ⟨_, rfl⟩, ⟨_, rfl⟩, ⟨_, rfl⟩, unterminated_fields.1, by
    rw [← unterminated_word, ← step_of_running unterminated_fields.1]
    exact test_unterminated_string_never_completes⟩

theorem witness_AddRegisterForm : (0x1FDF#16).extractLsb' 12 4 = 0b0001#4 ∧ (0x1FDF#16).getLsbD 5 = false := by decide
theorem witness_AddImmediateForm : (0x1FFF#16).extractLsb' 12 4 = 0b0001#4 ∧ (0x1FFF#16).getLsbD 5 = true := by decide
theorem witness_AndRegisterForm : (0x5FDF#16).extractLsb' 12 4 = 0b0101#4 ∧ (0x5FDF#16).getLsbD 5 = false := by decide
theorem witness_AndImmediateForm : (0x5020#16).extractLsb' 12 4 = 0b0101#4 ∧ (0x5020#16).getLsbD 5 = true := by decide
theorem witness_NotComplements : (0x997F#16).extractLsb' 12 4 = 0b1001#4 := by decide

/-- The encoding; a flag and a mask for taken, and the empty mask for not taken. -/
theorem witness_BranchConditional : (0x0FFF#16).extractLsb' 12 4 = 0b0000#4 ∧
    (true = true ∧ (State.reset.withCond .N).cond = .N) ∧ (true = true ∧ State.reset.cond = .Z) ∧
    (true = true ∧ (State.reset.withCond .P).cond = .P) ∧
    ¬((false = true ∧ State.reset.cond = .N) ∨ (false = true ∧ State.reset.cond = .Z) ∨
      (false = true ∧ State.reset.cond = .P)) := by decide

theorem witness_JumpThroughRegister : (0xCEFF#16).extractLsb' 12 4 = 0b1100#4 := by decide
theorem witness_CallPcRelative : (0x4C00#16).extractLsb' 12 4 = 0b0100#4 ∧ (0x4C00#16).getLsbD 11 = true := by decide
theorem witness_CallThroughRegister : (0x46BF#16).extractLsb' 12 4 = 0b0100#4 ∧ (0x46BF#16).getLsbD 11 = false := by decide
theorem witness_LoadPcRelative : (0x2300#16).extractLsb' 12 4 = 0b0010#4 := by decide
theorem witness_LoadIndirect : (0xA224#16).extractLsb' 12 4 = 0b1010#4 := by decide
theorem witness_LoadBaseOffset : (0x6460#16).extractLsb' 12 4 = 0b0110#4 := by decide
theorem witness_LoadEffectiveAddress : (0xE1FE#16).extractLsb' 12 4 = 0b1110#4 := by decide
theorem witness_StorePcRelative : (0x37FF#16).extractLsb' 12 4 = 0b0011#4 := by decide
theorem witness_StoreIndirect : (0xB5FF#16).extractLsb' 12 4 = 0b1011#4 := by decide
theorem witness_StoreBaseOffset : (0x71A0#16).extractLsb' 12 4 = 0b0111#4 := by decide

theorem witness_StoreSeenByNextFetch : (at3000 0x3600#16).run = .running := by decide

theorem witness_UnknownTrapVectorIsFatal :
    ((0x1F#8).toNat < 0x20 ∨ 0x25 < (0x1F#8).toNat) ∧ ((0x26#8).toNat < 0x20 ∨ 0x25 < (0x26#8).toNat) := by decide

theorem witness_GetcReadsOneByte : (prompting 0xF020#16 (.byte 0xFF#8 (.late .ended))).input.answer =
    .byte 0xFF#8 (.late .ended) := by decide

theorem witness_InPromptsThenReadsOneByte : (prompting 0xF023#16 (.byte 0x00#8 .ended)).input.answer =
    .byte 0x00#8 .ended ∧
    (prompting 0xF023#16 (.byte 0x00#8 .ended)).io.sinkCanFail = false := by decide

/-- Both ways a source fails. -/
theorem witness_InputFailureIsFatal : (prompting 0xF023#16 .ended).input.answer = .failed .ended ∧
    (prompting 0xF023#16 (.error (.late .ended))).input.answer = .failed (.late .ended) ∧
    (prompting 0xF023#16 .ended).io.sinkCanFail = false := ⟨rfl, rfl, rfl⟩

/-- A late byte, and a source that blocks for ever. -/
theorem witness_BlockedReadHoldsTheCore : (prompting 0xF023#16 (.late .ended)).run = .running ∧
    readsInput (decodeWord (prompting 0xF023#16 (.late .ended)).fetchWord) = true ∧
    (prompting 0xF023#16 (.late .ended)).input.answer = .notYet .ended ∧
    (prompting 0xF023#16 .silent).input.answer = .notYet .silent := by decide

/-- A source without end and a source that blocks for ever, each at a GETC. -/
theorem witness_SourcesWithoutEnd :
    (prompting 0xF020#16 (.endless 3 0)).run = .running ∧
    readsInput (decodeWord (prompting 0xF020#16 (.endless 3 0)).fetchWord) = true ∧
    (prompting 0xF020#16 (.endless 3 0)).input = .endless 3 0 ∧
    (prompting 0xF020#16 (.endless 3 0)).io.sinkCanFail = false ∧
    (∃ t, step (prompting 0xF020#16 (.endless 3 0)) = .next t) ∧
    (prompting 0xF020#16 .silent).run = .running ∧
    readsInput (decodeWord (prompting 0xF020#16 .silent).fetchWord) = true ∧
    (prompting 0xF020#16 .silent).input = .silent :=
  ⟨rfl, rfl, rfl, rfl, ⟨_, rfl⟩, rfl, rfl, rfl⟩

theorem witness_OutWritesLowByte : (at3000 0xF021#16).io.sinkCanFail = false := by decide

/-- A string of two words across the top of memory: the first has a zero high byte, the second a zero low byte. -/
def twoWords : State := (State.reset.writeReg 0#3 0xFFFF#16).writeCell 0xFFFF#16 0x0041#16 |>.writeCell 0#16 0x4200#16

/-- The words of that string. -/
def theTwo : List Word := [0x0041#16, 0x4200#16]

theorem twoWords_cells : ∀ k (h : k < theTwo.length), twoWords.readCell (plus16 (twoWords.readReg 0#3) k) = theTwo[k] := by
  intro k h
  rw [plus16_natCast]
  revert h
  revert k
  decide

theorem twoWords_end : twoWords.readCell (plus16 (twoWords.readReg 0#3) theTwo.length) = 0#16 := by
  rw [plus16_natCast]
  decide

theorem twoWords_nonzero : ∀ w ∈ theTwo, w ≠ 0#16 := by simp [theTwo]

theorem twoWords_sink : twoWords.io.sinkCanFail = false := by decide

/-- Two words. -/
theorem witness_PutsWritesTheString : twoWords.io.sinkCanFail = false ∧ (∀ w ∈ theTwo, w ≠ 0#16) ∧
    (∀ k (h : k < theTwo.length), twoWords.readCell (plus16 (twoWords.readReg 0#3) k) = theTwo[k]) ∧
    twoWords.readCell (plus16 (twoWords.readReg 0#3) theTwo.length) = 0#16 := by
  refine ⟨twoWords_sink, twoWords_nonzero, twoWords_cells, twoWords_end⟩

theorem witness_PutspWritesThePackedString : ∃ (s : State) (ws : List Word), s.io.sinkCanFail = false ∧ (∀ w ∈ ws, w ≠ 0#16) ∧
    (∀ k (h : k < ws.length), s.readCell (plus16 (s.readReg 0#3) k) = ws[k]) ∧
    s.readCell (plus16 (s.readReg 0#3) ws.length) = 0#16 :=
  ⟨twoWords, theTwo, witness_PutsWritesTheString⟩

/-- A sink that never fails, with a zero cell and without one. -/
theorem witness_StringServicesCompleteIffZeroWord : State.reset.io.sinkCanFail = false ∧
    (∃ a, State.reset.readCell a = 0#16) ∧ unterminated.io.sinkCanFail = false ∧ ∀ a, unterminated.readCell a ≠ 0#16 :=
  ⟨rfl, ⟨0#16, by decide⟩, unterminated_fields.2, unterminated_no_zero⟩

theorem witness_HaltEndsTheRun : (at3000 0xF025#16).io.sinkCanFail = false := by decide

/-- A state in which each of the five instructions is a case; its string is empty, and the second one's is not. -/
theorem witness_OutputFailureAtOnceIsFatal :
    (failing 0xF022#16 [.fail]).io.sinkCanFail = true ∧ (failing 0xF022#16 [.fail]).sinkAnswers = .fail :: [] ∧
    ¬mustWait (.trapIn 0#4) (failing 0xF022#16 [.fail]) ∧
    (failing 0xF022#16 [.fail]).readCell ((failing 0xF022#16 [.fail]).readReg 0#3) = 0#16 ∧
    ((failing 0xF022#16 [.fail]).writeReg 0#3 0x3000#16).readCell 0x3000#16 ≠ 0#16 := by
  refine ⟨by decide, by decide, ?_, by decide, by decide⟩
  rintro ⟨-, rest, h⟩
  cases h

/-- The string of `twoWords`, with a sink that accepts `k` bytes of it. -/
def cutAfter (k : Nat) : State :=
  { twoWords with io := ⟨[], true⟩, sinkAnswers := List.replicate k .ok ++ [.fail] }

/-- Cut at a byte of PUTS, between the two bytes of a word of PUTSP, and at the closing flush of each. -/
theorem witness_OutputFailureInsideAString : ∀ k,
    (cutAfter k).io.sinkCanFail = true ∧ (cutAfter k).sinkAnswers = List.replicate k .ok ++ .fail :: [] ∧
    (∀ w ∈ theTwo, w ≠ 0#16) ∧
    (∀ j (h : j < theTwo.length), (cutAfter k).readCell (plus16 ((cutAfter k).readReg 0#3) j) = theTwo[j]) ∧
    (cutAfter k).readCell (plus16 ((cutAfter k).readReg 0#3) theTwo.length) = 0#16 ∧
    (theTwo.map (fun w : Word => SinkEvent.byte (w.setWidth 8))).length = 2 ∧
    theTwo.flatMap (fun w : Word => if w.toNat < 256 then [SinkEvent.byte (w.setWidth 8)]
      else [SinkEvent.byte (w.setWidth 8), SinkEvent.byte ((w >>> 8).setWidth 8)]) =
      [.byte 0x41#8, .byte 0x00#8, .byte 0x42#8] := fun _ =>
  ⟨rfl, rfl, twoWords_nonzero, twoWords_cells, twoWords_end, rfl, by simp [theTwo]⟩

theorem witness_OutputFailureAtTheFlushOfOut : (failing 0xF021#16 [.ok, .fail]).io.sinkCanFail = true ∧
    (failing 0xF021#16 [.ok, .fail]).sinkAnswers = .ok :: .fail :: [] := by decide

/-- A prompt of two bytes, cut at each of them and at the flush, before a source that would fail. -/
theorem witness_OutputFailureInThePrompt : ∀ k ≤ 2,
    ({ prompting 0xF023#16 .ended with
      io := ⟨[0x3E#8, 0x20#8], true⟩, sinkAnswers := List.replicate k .ok ++ .fail :: [] } : State).io.inPrompt.length = 2 ∧
    ¬mustWait (.trapIn 0#4) { prompting 0xF023#16 .ended with
      io := ⟨[0x3E#8, 0x20#8], true⟩, sinkAnswers := List.replicate k .ok ++ .fail :: [] } := by
  intro k _
  refine ⟨rfl, ?_⟩
  rintro ⟨-, rest, h⟩
  cases h

theorem witness_AcceptingSinkIsAsOneThatCannotFail :
    (failing 0xF021#16 [.ok, .ok]).io.sinkCanFail = true ∧ (∀ a ∈ (failing 0xF021#16 [.ok, .ok]).sinkAnswers, a = .ok) ∧
    ∃ t, exec (.trapOut 0#4) { failing 0xF021#16 [.ok, .ok] with io := ⟨(failing 0xF021#16 [.ok, .ok]).io.inPrompt, false⟩ } =
      .next t :=
  ⟨rfl, by simp [failing], _, rfl⟩

theorem witness_StepRunsTheDecodedInstruction : (at3000 0x1401#16).run = .running ∧
    decode [((at3000 0x1401#16).readCell 0x3000#16).setWidth 8, (((at3000 0x1401#16).readCell 0x3000#16) >>> 8).setWidth 8] =
      .ok (.addReg 2#3 0#3 0#2 1#3, []) := by decide

theorem witness_PlacedWordRunsNext : (Instr.trapHalt 0#4).wf = true := by decide

theorem witness_TerminalStatesAreSticky : (State.reset.withRun .halted).run ≠ .running ∧
    (State.reset.withRun (.fatal (.inputFailed ⟨0xF020#16, 0x3000#16⟩))).run ≠ .running := by decide

theorem witness_OnlyAnEndlessStringStops : step unterminated = .fault .endlessString :=
  test_unterminated_string_never_completes

/-- A destination register, a store, a branch and a fatal error, each with its next state. -/
theorem witness_CycleTouchesOnlyWhatItsRuleNames :
    [0x1401#16, 0x3601#16, 0x0405#16, 0x8000#16, 0xF021#16].all (fun ir =>
      (at3000 ir).run == .running && (after (at3000 ir) (·.pc)).isSome && !readsInput (decodeWord (at3000 ir).fetchWord)) =
      true := by decide

/-- An instruction with a destination register, one without, and BR. -/
theorem witness_CondWritersAndReader :
    (∃ t, exec (.lea 0#3 0#9) State.reset = .next t) ∧ destReg (.lea 0#3 0#9) = some 0#3 ∧
    (∃ t, exec (.st 0#3 0#9) State.reset = .next t) ∧ destReg (.st 0#3 0#9) = none ∧
    (Instr.st 0#3 0#9).opcode ≠ .br ∧ (Instr.br true true true 0#9).opcode = .br :=
  ⟨⟨_, rfl⟩, rfl, ⟨_, rfl⟩, rfl, by decide, rfl⟩

/-- Every way a cycle can end. -/
theorem witness_HowACycleEnds :
    after (at3000 0x1401#16) (·.run) = some .running ∧ after (at3000 0xF025#16) (·.run) = some .halted ∧
    after (at3000 0x8000#16) (·.run) = some (.fatal (.unknownOpcode ⟨0x8000#16, 0x3000#16⟩)) ∧
    after (at3000 0xF000#16) (·.run) = some (.fatal (.unknownTrapVector ⟨0xF000#16, 0x3000#16⟩)) ∧
    after (at3000 0xF020#16) (·.run) = some (.fatal (.inputFailed ⟨0xF020#16, 0x3000#16⟩)) ∧
    after (failing 0xF021#16 [.fail]) (·.run) = some (.fatal (.outputFailed ⟨0xF021#16, 0x3000#16⟩)) := by decide

theorem witness_OutputIsAppendOnlyAndNeverRead : (after (at3000 0xF021#16) (·.output)).isSome = true := by decide

theorem witness_RunIsIteratedStep : ∃ t, runCycles 2 (at3000 0xF025#16) = .returned t ∧
    Host.Core.run Sys2Proof.core 2 (at3000 0xF025#16) = .next t ∧ t.run = .halted :=
  ⟨_, rfl, rfl, rfl⟩

/-- A cycle that need not wait, and one that waits for two moves of the source before its byte. -/
theorem witness_HostStepPerformsOneCycle :
    ¬((at3000 0x1401#16).run = .running ∧
      mustWait (decodeWord (at3000 0x1401#16).fetchWord) (at3000 0x1401#16)) ∧
    (prompting 0xF020#16 (.late (.late (.byte 0x41#8 .ended)))).run = .running ∧
    readsInput (decodeWord (prompting 0xF020#16 (.late (.late (.byte 0x41#8 .ended)))).fetchWord) = true ∧
    (prompting 0xF020#16 (.late (.late (.byte 0x41#8 .ended)))).input.answer =
      .notYet (.late (.byte 0x41#8 .ended)) := by
  refine ⟨?_, by decide, by decide, rfl⟩
  rintro ⟨-, -, rest, h⟩
  cases h

theorem witness_CanonicalMemoryIsUnique :
    Memory.wf (memWrite [] 5#16 0x0102#16) ∧ Memory.wf (memWriteByte (memWriteByte [] 11 0x01#8) 10 0x02#8) ∧
    memRead (memWrite [] 5#16 0x0102#16) 5#16 = memRead (memWriteByte (memWriteByte [] 11 0x01#8) 10 0x02#8) 5#16 := by
  decide

theorem witness_StepKeepsInvariant : State.reset.Inv ∧ ∃ t, step State.reset = .next t :=
  ⟨⟨Memory.wf_nil, fun _ h => (by cases h), fun _ _ => by simp [State.reset, State.resetWith]⟩, _, rfl⟩

theorem witness_ResetMeetsInvariant : Memory.wf (memWrite [] 0xFFFF#16 0xFFFF#16) := memWrite_wf _ _ Memory.wf_nil

/-- An image that fits, the longest one, and one word more. -/
theorem witness_LoadPlacesTheImage : [0x1234#16, 0x5678#16].length ≤ 65536 ∧
    (List.replicate 65536 (0#16 : Word)).length ≤ 65536 ∧ 65536 < (List.replicate 65537 (0#16 : Word)).length :=
  ⟨by decide, Nat.le_of_eq List.length_replicate, by rw [List.length_replicate]; decide⟩

end Sys2Proof.Tests
end

section
/-! Sign and zero extension as numbers (00_scope.md rule R9). -/

namespace Sys2Proof.Machine

/-- The value by the sign bit: an N-bit field below `2 ^ (N - 1)` keeps its value, any other gains the bits from N
through 15, which are worth `65536 - 2 ^ N`. -/
theorem toNat_sext {n : Nat} (v : BitVec n) (h : n ≤ 16) :
    (sext v).toNat = if v.toNat < 2 ^ (n - 1) then v.toNat else v.toNat + (65536 - 2 ^ n) := by
  have hlow : (v.setWidth 16).toNat = v.toNat := BitVec.toNat_setWidth_of_le h
  rw [sext, BitVec.toNat_signExtend, hlow, BitVec.msb_eq_decide]
  by_cases hv : v.toNat < 2 ^ (n - 1)
  · simp [hv]
  · simp [hv]

@[simp] theorem toNat_zextByte (b : Byte) : (zextByte b).toNat = b.toNat :=
  BitVec.toNat_setWidth_of_le (by decide)

/-- Settles O7: the value of `sext` at each width is `toNat_sext`, and that of a byte is `toNat_zextByte`. -/
theorem extensionByWidth : Obligations.ExtensionByWidth :=
  ⟨fun v => toNat_sext v (by decide), fun v => toNat_sext v (by decide), fun v => toNat_sext v (by decide),
    fun v => toNat_sext v (by decide), toNat_zextByte⟩

end Sys2Proof.Machine
end

section
/-! The condition code does not interfere (10_state.md rule R29): each operation of the machine, run from a state with
another COND, gives the same outcome with that COND in it. -/

namespace Sys2Proof.Machine

/-! ## An update of the state inside an outcome -/

/-- The outcome with `f` applied to its state. -/
def SinkResult.map (f : State → State) : SinkResult → SinkResult
  | .accepted s => .accepted (f s)
  | .failed s => .failed (f s)

/-- The outcome with `f` applied to its state, if it has one. -/
def ScanResult.map (f : State → State) : ScanResult → ScanResult
  | .ended s => .ended (f s)
  | .failed s => .failed (f s)
  | .endless => .endless

/-- The outcome with `f` applied to the next state, if it has one. -/
def mapNext (f : State → State) : Host.Outcome State Fault Refusal → Host.Outcome State Fault Refusal
  | .next s => .next (f s)
  | .fault r => .fault r
  | .refused r => .refused r

/-! ## The sink and the services -/

theorem State.sinkTake_withCond (s : State) (c : Cond) (e : SinkEvent) :
    (s.withCond c).sinkTake e = (s.sinkTake e).map (·.withCond c) := by
  cases hcan : s.io.sinkCanFail with
  | false =>
    rw [State.sinkTake_of_cannot_fail e hcan, State.sinkTake_of_cannot_fail (s := s.withCond c) e hcan]
    rfl
  | true =>
    simp only [State.sinkTake, State.io_withCond, hcan, if_true, State.sinkAnswers_withCond]
    rcases s.sinkAnswers with _ | ⟨_ | _, rest⟩ <;> rfl

theorem State.outBytes_withCond (s : State) (c : Cond) (bs : List Byte) :
    (s.withCond c).outBytes bs = (s.outBytes bs).map (·.withCond c) := by
  induction bs generalizing s with
  | nil => rfl
  | cons b bs ih =>
    simp only [State.outBytes, State.outByte, State.sinkTake_withCond]
    cases s.sinkTake (.byte b) with
    | accepted s' => exact ih s'
    | failed s' => rfl

theorem State.flushOrFail_withCond (s : State) (c : Cond) (ir : Word) :
    (s.withCond c).flushOrFail ir = (s.flushOrFail ir).withCond c := by
  simp only [State.flushOrFail, State.outFlush, State.sinkTake_withCond]
  cases s.sinkTake .flush <;> rfl

theorem State.takeInput_withCond (s : State) (c : Cond) (ir : Word) (answer : InputAnswer) :
    (s.withCond c).takeInput ir answer = (s.takeInput ir answer).withCond c := by
  cases answer <;> rfl

theorem promptThenTake_withCond (ir : Word) (answer : InputAnswer) (s : State) (c : Cond) :
    promptThenTake ir answer (s.withCond c) = (promptThenTake ir answer s).withCond c := by
  simp only [promptThenTake, State.io_withCond, State.outBytes_withCond]
  cases s.outBytes s.io.inPrompt with
  | failed s' => rfl
  | accepted s' =>
    simp only [SinkResult.map, State.outFlush, State.sinkTake_withCond]
    cases s'.sinkTake .flush with
    | failed s'' => rfl
    | accepted s'' => exact s''.takeInput_withCond c ir answer

theorem scanString_withCond (emit : Word → List Byte) (fuel : Nat) (p : Word) (s : State) (c : Cond) :
    scanString emit fuel p (s.withCond c) = (scanString emit fuel p s).map (·.withCond c) := by
  induction fuel generalizing p s with
  | zero => rfl
  | succ fuel ih =>
    simp only [scanString, State.readCell_withCond, State.outBytes_withCond]
    split
    · rfl
    · cases s.outBytes (emit (s.readCell p)) with
      | accepted s' => exact ih (p + 1#16) s'
      | failed s' => rfl

theorem stringService_withCond (emit : Word → List Byte) (ir : Word) (s : State) (c : Cond) :
    stringService emit ir (s.withCond c) = mapNext (·.withCond c) (stringService emit ir s) := by
  have hfuel : scanFuel (s.withCond c) = scanFuel s := rfl
  simp only [stringService, hfuel, State.readReg_withCond, scanString_withCond]
  cases scanString emit (scanFuel s) (s.readReg regR0) s with
  | ended s' => exact congrArg _ (s'.flushOrFail_withCond c ir)
  | failed s' => rfl
  | endless => rfl

/-! ## The instructions -/

/-- An instruction with a destination register neither reads COND nor keeps it: its outcome is the same state whatever
COND was, with COND from the written value. -/
theorem exec_of_destReg {i : Instr} {dr : RegIdx} (h : destReg i = some dr) (s : State) :
    ∃ v, exec i s = .next (s.writeDest dr v) ∧ ∀ c, exec i (s.withCond c) = .next (s.writeDest dr v) := by
  cases i <;> cases h <;> exact ⟨_, rfl, fun _ => rfl⟩

/-- An instruction without a destination register, BR apart, carries COND along. -/
theorem exec_withCond {i : Instr} (hdest : destReg i = none) (hbr : i.opcode ≠ .br) (s : State) (c : Cond) :
    exec i (s.withCond c) = mapNext (·.withCond c) (exec i s) := by
  cases i
  case br => exact absurd rfl hbr
  case addReg | addImm | andReg | andImm | not | ld | ldi | ldr | lea => cases hdest
  case st | sti | str | jmp | jsr | jsrr | unimplemented1000 | unimplemented1101 | trapUnknown => rfl
  case trapGetc g => exact congrArg _ (s.takeInput_withCond c (encode (.trapGetc g)) s.inByte)
  case trapPuts g => exact stringService_withCond putsBytes (encode (.trapPuts g)) s c
  case trapPutsp g => exact stringService_withCond putspBytes (encode (.trapPutsp g)) s c
  case trapOut g =>
    simp only [exec, execOut, State.outByte, State.readReg_withCond, State.sinkTake_withCond]
    cases s.sinkTake (.byte (lowByte (s.readReg regR0))) with
    | accepted s' => exact congrArg _ (s'.flushOrFail_withCond c (encode (.trapOut g)))
    | failed s' => rfl
  case trapIn g =>
    simp only [exec, execIn, State.inByte, State.input_withCond, promptThenTake_withCond]
    cases s.input.answer <;> rfl
  case trapHalt g =>
    simp only [exec, execHalt, State.outFlush, State.sinkTake_withCond]
    cases s.sinkTake .flush <;> rfl

/-- An instruction that carries COND along keeps it: run it from the COND it started with. -/
theorem exec_cond_of_not_br {i : Instr} (hdest : destReg i = none) (hbr : i.opcode ≠ .br) {s t : State}
    (h : exec i s = .next t) : t.cond = s.cond := by
  have same : exec i s = mapNext (·.withCond s.cond) (exec i s) := exec_withCond hdest hbr s s.cond
  rw [h] at same
  injection same with ht
  calc t.cond = (t.withCond s.cond).cond := congrArg State.cond ht
    _ = s.cond := rfl

theorem execBr_cond {n z p : Bool} {off : BitVec 9} {s t : State} (h : execBr n z p off s = .next t) :
    t.cond = s.cond := by
  unfold execBr at h
  split at h <;> cases h <;> rfl

theorem exec_cond_of_no_destReg {i : Instr} (hdest : destReg i = none) {s t : State} (h : exec i s = .next t) :
    t.cond = s.cond := by
  by_cases hbr : i.opcode = .br
  · cases i <;> cases hbr
    exact execBr_cond h
  · exact exec_cond_of_not_br hdest hbr h

/-- Settles O50: the writers by `exec_of_destReg`, the others by `exec_cond_of_no_destReg`, and that BR alone reads COND
by `exec_of_destReg` and `exec_withCond`. -/
theorem condWritersAndReader : Obligations.CondWritersAndReader := by
  refine ⟨fun s => ⟨rfl, fun _ => rfl⟩, fun i s t h => ⟨?_, fun hdest => exec_cond_of_no_destReg hdest h, ?_⟩⟩
  · intro dr hdest
    obtain ⟨v, hv, -⟩ := exec_of_destReg hdest s
    obtain rfl : s.writeDest dr v = t := by rw [hv] at h; injection h
    simpa using condShows_condOf v
  · intro hbr c
    cases hdest : destReg i with
    | some dr =>
      obtain ⟨v, hv, hc⟩ := exec_of_destReg hdest s
      exact ⟨t.cond, (hc c).trans (hv.symm.trans h)⟩
    | none => exact ⟨c, by rw [exec_withCond hdest hbr s c, h]; rfl⟩

end Sys2Proof.Machine
end

section
/-! The frame of a cycle (40_cycle.md rule R124): what each instruction may change, from the shared effects of
Laws/Claims.lean and the inversion lemma of the traps. -/

namespace Sys2Proof.Machine

/-! ## What is kept -/

theorem RegsKept.of_none {s t : State} (h : RegsKept [] s t) (except : List RegIdx) : RegsKept except s t :=
  fun r _ => h r List.not_mem_nil

theorem CellsKept.of_none {s t : State} (h : CellsKept [] s t) (except : List Word) : CellsKept except s t :=
  fun a _ => h a List.not_mem_nil

theorem ServiceKept.trans {results : List RegIdx} {s t u : State} (h : ServiceKept results s t)
    (h' : ServiceKept results t u) : ServiceKept results s u where
  regs := fun r hr => (h'.regs r hr).trans (h.regs r hr)
  cells := fun a ha => (h'.cells a ha).trans (h.cells a ha)
  pc := h'.pc.trans h.pc
  cond := h'.cond.trans h.cond
  io := h'.io.trans h.io

theorem SinkOnly.serviceKept {s t : State} (h : SinkOnly s t) (results : List RegIdx) : ServiceKept results s t := by
  obtain ⟨as, out, rfl⟩ := h
  exact ⟨fun _ _ => rfl, fun _ _ => rfl, rfl, rfl, rfl⟩

theorem SinkOnly.input {s t : State} (h : SinkOnly s t) : t.input = s.input := by
  obtain ⟨as, out, rfl⟩ := h
  rfl

theorem withRun_serviceKept (s : State) (v : Run) (results : List RegIdx) : ServiceKept results s (s.withRun v) :=
  ⟨fun _ _ => rfl, fun _ _ => rfl, rfl, rfl, rfl⟩

/-- An answer of the source reaches R0 alone, unless it is that there is nothing yet. -/
theorem State.takeInput_serviceKept (s : State) (ir : Word) {answer : InputAnswer} (ready : ∀ rest, answer ≠ .notYet rest) :
    ServiceKept [regR0] s (s.takeInput ir answer) := by
  cases answer with
  | byte b rest =>
    exact ⟨fun r hr => State.readReg_writeReg_of_ne _ _ (by simpa using hr), fun _ _ => rfl, rfl, rfl, rfl⟩
  | failed rest => exact ⟨fun _ _ => rfl, fun _ _ => rfl, rfl, rfl, rfl⟩
  | notYet rest => exact absurd rfl (ready rest)

/-- The answer of the source asks nothing of the sink. -/
theorem State.takeInput_sink (s : State) (ir : Word) (answer : InputAnswer) :
    (s.takeInput ir answer).output = s.output ∧ (s.takeInput ir answer).sinkAnswers = s.sinkAnswers := by
  cases answer <;> exact ⟨rfl, rfl⟩

/-! ## The traps -/

theorem writtenRegs_of_readsInput {i : Instr} (h : readsInput i = true) : writtenRegs i = [regR0] := by
  cases i <;> cases h <;> rfl

/-- A trap that is performed keeps the PC, COND, memory, the parameters and every register but the R0 of GETC and IN. -/
theorem TrapEnd.serviceKept {i : Instr} {s t : State} (h : TrapEnd i s t) (hwait : ¬mustWait i s) :
    ServiceKept (writtenRegs i) s t := by
  cases h with
  | written _ kept => exact kept.serviceKept _
  | halted u _ kept => exact (kept.serviceKept _).trans (withRun_serviceKept u _ _)
  | outputFailed u _ _ kept => exact (kept.serviceKept _).trans (raiseFatal_serviceKept u _ _)
  | answered u answer reads kept _ ready =>
    rw [writtenRegs_of_readsInput reads]
    exact (kept.serviceKept _).trans (u.takeInput_serviceKept _ ready)
  | held _ waits => exact absurd waits hwait
  | unknownVector => exact raiseFatal_serviceKept s _ _

theorem TrapEnd.input_kept {i : Instr} {s t : State} (h : TrapEnd i s t) (hreads : readsInput i = false) :
    t.input = s.input := by
  cases h with
  | written _ kept => exact kept.input
  | halted u _ kept =>
    calc (u.withRun .halted).input = u.input := rfl
      _ = s.input := kept.input
  | outputFailed u _ _ kept =>
    calc (u.failOutput (encode i)).input = u.input := rfl
      _ = s.input := kept.input
  | answered _ _ reads => simp [hreads] at reads
  | held _ waits =>
    obtain ⟨reads, -⟩ := waits
    simp [hreads] at reads
  | unknownVector => rfl

/-- The traps that do not write, GETC and the unknown vector, ask nothing of the sink. -/
theorem trap_sink_kept {i : Instr} (htrap : i.opcode = .trap) (hsink : writesSink i = false) {s t : State}
    (h : exec i s = .next t) : t.output = s.output ∧ t.sinkAnswers = s.sinkAnswers := by
  cases i <;> cases htrap <;> cases hsink
  case trapGetc g =>
    cases h
    exact s.takeInput_sink _ s.inByte
  case trapUnknown g v =>
    cases h
    exact ⟨rfl, rfl⟩

/-! ## The frame of an instruction -/

/-- What the execution of `i` from the state after the fetch may change, element by element. -/
structure ExecFrame (i : Instr) (s t : State) : Prop where
  regs : RegsKept (writtenRegs i) s t
  cells : CellsKept (storedCells i s) s t
  cond : destReg i = none → t.cond = s.cond
  pc : transfersControl i = false → t.pc = s.pc
  input : readsInput i = false → t.input = s.input
  sink : writesSink i = false → t.output = s.output ∧ t.sinkAnswers = s.sinkAnswers
  run : i.opcode ≠ .trap → i.opcode ≠ .none1000 → i.opcode ≠ .none1101 → t.run = s.run
  io : t.io = s.io

theorem DestWritten.execFrame {i : Instr} {dr : RegIdx} {v : Word} {s t : State} (h : DestWritten dr v s t)
    (hdest : destReg i = some dr) (hregs : writtenRegs i = [dr]) : ExecFrame i s t where
  regs := hregs ▸ h.regs
  cells := h.cells.of_none _
  cond := fun hnone => by simp [hdest] at hnone
  pc := fun _ => h.pc
  input := fun _ => h.streams.input
  sink := fun _ => ⟨h.streams.output, h.streams.sinkAnswers⟩
  run := fun _ _ _ => h.run
  io := h.io

theorem CellStored.execFrame {i : Instr} {a v : Word} {s t : State} (h : CellStored a v s t)
    (hcells : storedCells i s = [a]) : ExecFrame i s t where
  regs := h.regs.of_none _
  cells := hcells ▸ h.cells
  cond := fun _ => h.cond
  pc := fun _ => h.pc
  input := fun _ => h.streams.input
  sink := fun _ => ⟨h.streams.output, h.streams.sinkAnswers⟩
  run := fun _ _ _ => h.run
  io := h.io

theorem ControlAt.execFrame {i : Instr} {target : Word} {s t : State} (h : ControlAt target (writtenRegs i) s t)
    (hcontrol : transfersControl i = true) : ExecFrame i s t where
  regs := h.regs
  cells := h.cells.of_none _
  cond := fun _ => h.cond
  pc := fun hnot => by simp [hcontrol] at hnot
  input := fun _ => h.streams.input
  sink := fun _ => ⟨h.streams.output, h.streams.sinkAnswers⟩
  run := fun _ _ _ => h.run
  io := h.io

theorem unknownOpcode_execFrame {i : Instr} (hop : i.opcode = .none1000 ∨ i.opcode = .none1101) (s : State) (ir : Word) :
    ExecFrame i s (s.unknownOpcode ir) where
  regs := fun _ _ => rfl
  cells := fun _ _ => rfl
  cond := fun _ => rfl
  pc := fun _ => rfl
  input := fun _ => rfl
  sink := fun _ => ⟨rfl, rfl⟩
  run := fun _ h1000 h1101 => absurd hop (not_or.mpr ⟨h1000, h1101⟩)
  io := rfl

theorem trap_execFrame {i : Instr} (htrap : i.opcode = .trap) {s t : State} (hwait : ¬mustWait i s)
    (h : exec i s = .next t) : ExecFrame i s t :=
  have ends : TrapEnd i s t := trap_cases htrap h
  have kept : ServiceKept (writtenRegs i) s t := ends.serviceKept hwait
  { regs := kept.regs
    cells := kept.cells.of_none _
    cond := fun _ => kept.cond
    pc := fun _ => kept.pc
    input := ends.input_kept
    sink := fun hsink => trap_sink_kept htrap hsink h
    run := fun hnot => absurd htrap hnot
    io := kept.io }

/-- The branch goes to its target or stays at the next instruction. -/
theorem execBr_controlAt {n z p : Bool} {off : BitVec 9} {s t : State} (h : execBr n z p off s = .next t) :
    ControlAt t.pc [] s t := by
  unfold execBr at h
  split at h <;> cases h
  · exact withPc_controlAt s _
  · exact withPc_controlAt s s.pc

/-- Every instruction keeps to its frame: each is a write of its destination register, a store, a control transfer, a
fatal error or a trap. -/
theorem exec_execFrame {i : Instr} {s t : State} (hwait : ¬mustWait i s) (h : exec i s = .next t) : ExecFrame i s t := by
  cases i
  case addReg | addImm | andReg | andImm | not | ld | ldi | ldr | lea =>
    cases h
    exact (writeDest_destWritten s _ _).execFrame rfl rfl
  case st | sti | str =>
    cases h
    exact (writeCell_cellStored s _ _).execFrame rfl
  case br => exact (execBr_controlAt h).execFrame rfl
  case jmp =>
    cases h
    exact (withPc_controlAt s _).execFrame rfl
  case jsr | jsrr =>
    cases h
    exact (link_controlAt s _ _).execFrame rfl
  case unimplemented1000 =>
    cases h
    exact unknownOpcode_execFrame (.inl rfl) s _
  case unimplemented1101 =>
    cases h
    exact unknownOpcode_execFrame (.inr rfl) s _
  case trapGetc | trapOut | trapPuts | trapIn | trapPutsp | trapHalt | trapUnknown => exact trap_execFrame rfl hwait h

/-- Settles O49: a running step is the execution from the state after the fetch, which differs from the old one in the PC
alone, so its frame is that of `exec_execFrame`. -/
theorem cycleTouchesOnlyWhatItsRuleNames : Obligations.CycleTouchesOnlyWhatItsRuleNames := by
  rintro s t i hrun rfl hstep hwait
  rw [step_of_running hrun] at hstep
  have frame : ExecFrame (decodeWord s.fetchWord) s.advancePc t := exec_execFrame hwait hstep
  rw [plus16_one]
  exact ⟨frame.regs, frame.cells, frame.cond, frame.pc, frame.input, frame.sink,
    fun htrap h1000 h1101 => (frame.run htrap h1000 h1101).trans hrun, frame.io⟩

end Sys2Proof.Machine
end

section
/-! The operate instructions ADD, AND and NOT (41_operate.md rules R141 to R145): the decoder on their three opcodes, the
value each instruction writes, and that value in the spec's own arithmetic. -/

namespace Sys2Proof

/-! ## The encodings -/

/-- OPCODE_MAP read backwards at the number of an opcode (rule R84). -/
theorem Opcode.ofField_of_toField {f : BitVec 4} {o : Opcode} (h : f = o.toField) : Opcode.ofField f = o := by
  rw [h, Opcode.ofField_toField]

theorem decodeWord_of_add {ir : Word} (h : ir.extractLsb' 12 4 = Opcode.add.toField) :
    decodeWord ir =
      if ir.getLsbD 5 then .addImm (ir.extractLsb' 9 3) (ir.extractLsb' 6 3) (ir.extractLsb' 0 5)
      else .addReg (ir.extractLsb' 9 3) (ir.extractLsb' 6 3) (ir.extractLsb' 3 2) (ir.extractLsb' 0 3) := by
  rw [decodeWord, Opcode.ofField_of_toField h]

theorem decodeWord_of_and {ir : Word} (h : ir.extractLsb' 12 4 = Opcode.and.toField) :
    decodeWord ir =
      if ir.getLsbD 5 then .andImm (ir.extractLsb' 9 3) (ir.extractLsb' 6 3) (ir.extractLsb' 0 5)
      else .andReg (ir.extractLsb' 9 3) (ir.extractLsb' 6 3) (ir.extractLsb' 3 2) (ir.extractLsb' 0 3) := by
  rw [decodeWord, Opcode.ofField_of_toField h]

theorem decodeWord_of_not {ir : Word} (h : ir.extractLsb' 12 4 = Opcode.not.toField) :
    decodeWord ir = .not (ir.extractLsb' 9 3) (ir.extractLsb' 6 3) (ir.extractLsb' 0 6) := by
  rw [decodeWord, Opcode.ofField_of_toField h]

namespace Machine

/-! ## What each instruction writes -/

theorem exec_addReg (dr sr1 : RegIdx) (ign : BitVec 2) (sr2 : RegIdx) (s : State) :
    exec (.addReg dr sr1 ign sr2) s = .next (s.writeDest dr (s.readReg sr1 + s.readReg sr2)) := rfl

theorem exec_addImm (dr sr1 : RegIdx) (imm : BitVec 5) (s : State) :
    exec (.addImm dr sr1 imm) s = .next (s.writeDest dr (s.readReg sr1 + sext imm)) := rfl

theorem exec_andReg (dr sr1 : RegIdx) (ign : BitVec 2) (sr2 : RegIdx) (s : State) :
    exec (.andReg dr sr1 ign sr2) s = .next (s.writeDest dr (s.readReg sr1 &&& s.readReg sr2)) := rfl

theorem exec_andImm (dr sr1 : RegIdx) (imm : BitVec 5) (s : State) :
    exec (.andImm dr sr1 imm) s = .next (s.writeDest dr (s.readReg sr1 &&& sext imm)) := rfl

theorem exec_not (dr sr : RegIdx) (ign : BitVec 6) (s : State) :
    exec (.not dr sr ign) s = .next (s.writeDest dr (~~~s.readReg sr)) := rfl

/-! ## The bits of a sign-extended field -/

/-- The field's own bits, and its sign bit in every place above them. -/
theorem getLsbD_sext {n : Nat} (v : BitVec n) {k : Nat} (hk : k < 16) :
    (sext v).getLsbD k = v.getLsbD (min k (n - 1)) := by
  rw [sext, BitVec.getLsbD_signExtend, BitVec.msb_eq_getLsbD_last]
  by_cases hlow : k < n
  · have hmin : min k (n - 1) = k := by omega
    simp [hk, hlow, hmin]
  · have hmin : min k (n - 1) = n - 1 := by omega
    simp [hk, hlow, hmin]

/-! ## The rules -/

/-- Settles O8: both sources are read from the old state, and their wrapped sum is `plus16_toNat`. -/
theorem addRegisterForm : Obligations.AddRegisterForm := by
  refine ⟨fun ir hop hform => by rw [decodeWord_of_add hop, hform]; rfl, fun dr sr1 sr2 ign s => ?_⟩
  refine ⟨_, exec_addReg dr sr1 ign sr2 s, ?_⟩
  rw [plus16_toNat]
  exact writeDest_destWritten s dr _

/-- Settles O9: adding the sign-extended immediate is adding its two's-complement value, by `plus16_toInt`. -/
theorem addImmediateForm : Obligations.AddImmediateForm := by
  refine ⟨fun ir hop hform => by rw [decodeWord_of_add hop, hform]; rfl, fun dr sr1 imm s => ?_⟩
  refine ⟨_, exec_addImm dr sr1 imm s, ?_⟩
  rw [plus16_toInt _ imm (by decide)]
  exact writeDest_destWritten s dr _

/-- Settles O10: a bit of the conjunction is the conjunction of the bits. -/
theorem andRegisterForm : Obligations.AndRegisterForm := by
  refine ⟨fun ir hop hform => by rw [decodeWord_of_and hop, hform]; rfl, fun dr sr1 sr2 ign s => ?_⟩
  exact ⟨_, _, exec_andReg dr sr1 ign sr2 s, fun k _ => BitVec.getLsbD_and, writeDest_destWritten s dr _⟩

/-- Settles O11: as O10, with the bits of the immediate by `getLsbD_sext`. -/
theorem andImmediateForm : Obligations.AndImmediateForm := by
  refine ⟨fun ir hop hform => by rw [decodeWord_of_and hop, hform]; rfl, fun dr sr1 imm s => ?_⟩
  refine ⟨_, _, exec_andImm dr sr1 imm s, fun k hk => ?_, writeDest_destWritten s dr _⟩
  rw [BitVec.getLsbD_and, getLsbD_sext imm hk]

/-- Settles O12: the complement as a number is `BitVec.toNat_not`. -/
theorem notComplements : Obligations.NotComplements := by
  refine ⟨fun ir hop => decodeWord_of_not hop, fun dr sr ign s => ?_⟩
  exact ⟨_, _, exec_not dr sr ign s, BitVec.toNat_not, writeDest_destWritten s dr _⟩

end Machine
end Sys2Proof
end

section
/-! Control transfer (42_control.md rules R161 to R163): the decoder on its three opcodes, the one update of the state that
each instruction is, and its target in the spec's own arithmetic. -/

namespace Sys2Proof

/-! ## The encodings -/

theorem decodeWord_of_br {ir : Word} (h : ir.extractLsb' 12 4 = Opcode.br.toField) :
    decodeWord ir = .br (ir.getLsbD 11) (ir.getLsbD 10) (ir.getLsbD 9) (ir.extractLsb' 0 9) := by
  rw [decodeWord, Opcode.ofField_of_toField h]

theorem decodeWord_of_jmp {ir : Word} (h : ir.extractLsb' 12 4 = Opcode.jmp.toField) :
    decodeWord ir = .jmp (ir.extractLsb' 9 3) (ir.extractLsb' 6 3) (ir.extractLsb' 0 6) := by
  rw [decodeWord, Opcode.ofField_of_toField h]

theorem decodeWord_of_jsr {ir : Word} (h : ir.extractLsb' 12 4 = Opcode.jsr.toField) :
    decodeWord ir =
      if ir.getLsbD 11 then .jsr (ir.extractLsb' 0 11)
      else .jsrr (ir.extractLsb' 9 2) (ir.extractLsb' 6 3) (ir.extractLsb' 0 6) := by
  rw [decodeWord, Opcode.ofField_of_toField h]

namespace Machine

/-! ## The branch condition -/

/-- The spec's wording of the branch condition: the mask bit of the current flag is 1. -/
theorem branchTaken_iff (n z p : Bool) (c : Cond) :
    branchTaken n z p c = true ↔ (n = true ∧ c = .N) ∨ (z = true ∧ c = .Z) ∨ (p = true ∧ c = .P) := by
  simp only [branchTaken, Bool.or_eq_true, Bool.and_eq_true, beq_iff_eq, or_assoc]

/-- The 3-bit wording of the branch condition, `(mask & COND) != 0`: the one-hot COND picks the flag's own mask bit. -/
theorem branchTaken_iff_mask_and_condBits (n z p : Bool) (c : Cond) :
    branchTaken n z p c = true ↔
      (BitVec.ofBool n ++ BitVec.ofBool z ++ BitVec.ofBool p : BitVec 3) &&& condBits c ≠ 0#3 := by
  cases c
  case N | Z | P =>
    revert n z p
    decide

/-! ## What each instruction does -/

theorem exec_br_taken {n z p : Bool} {s : State} (off : BitVec 9) (h : branchTaken n z p s.cond = true) :
    exec (.br n z p off) s = .next (s.withPc (s.pcRelative off)) :=
  congrArg Host.Outcome.next (if_pos h)

theorem exec_br_not_taken {n z p : Bool} {s : State} (off : BitVec 9) (h : ¬branchTaken n z p s.cond = true) :
    exec (.br n z p off) s = .next s :=
  congrArg Host.Outcome.next (if_neg h)

theorem exec_jmp (ignHi : BitVec 3) (base : RegIdx) (ignLo : BitVec 6) (s : State) :
    exec (.jmp ignHi base ignLo) s = .next (s.withPc (s.readReg base)) := rfl

theorem exec_jsr (off : BitVec 11) (s : State) :
    exec (.jsr off) s = .next ((s.writeReg regR7 s.pc).withPc (s.pcRelative off)) := rfl

/-! ## The PC-relative target -/

theorem State.pcRelative_eq_plus16 {n : Nat} (s : State) (off : BitVec n) (h : n ≤ 16) :
    s.pcRelative off = plus16 s.pc off.toInt :=
  (plus16_toInt s.pc off h).symm

/-! ## The rules -/

/-- Settles O14: one case for a branch that is taken and one for a branch that is not, each against the spec's wording of
the condition by `branchTaken_iff`. -/
theorem branchConditional : Obligations.BranchConditional := by
  refine ⟨fun ir hop => decodeWord_of_br hop, branchTaken_iff_mask_and_condBits, fun n z p off s => ?_⟩
  rw [← branchTaken_iff, ← s.pcRelative_eq_plus16 off (by decide)]
  by_cases htaken : branchTaken n z p s.cond = true
  · exact ⟨_, exec_br_taken off htaken, fun _ => withPc_controlAt s _, fun hnot => absurd htaken hnot⟩
  · exact ⟨_, exec_br_not_taken off htaken, fun h => absurd h htaken, fun _ => withPc_controlAt s s.pc⟩

/-- Settles O15: the PC is the only element that JMP writes. -/
theorem jumpThroughRegister : Obligations.JumpThroughRegister :=
  ⟨fun _ hop => decodeWord_of_jmp hop, fun ignHi base ignLo s =>
    ⟨_, exec_jmp ignHi base ignLo s, withPc_controlAt s _⟩⟩

/-- Settles O16: the link and the target are both of the post-fetch PC, and `link_controlAt` is the frame. -/
theorem callPcRelative : Obligations.CallPcRelative := by
  refine ⟨fun ir hop hform => by rw [decodeWord_of_jsr hop, if_pos hform], fun off s => ?_⟩
  rw [← s.pcRelative_eq_plus16 off (by decide)]
  exact ⟨_, exec_jsr off s, s.readReg_writeReg_self regR7 s.pc, link_controlAt s _ _⟩

end Machine
end Sys2Proof
end

section
/-! Loads, stores and LEA (43_load_store.md rules R181 to R187): the decoder on their seven opcodes, the one write that each
instruction is, and its address in the spec's own arithmetic. -/

namespace Sys2Proof

/-! ## The encodings -/

theorem decodeWord_of_ld {ir : Word} (h : ir.extractLsb' 12 4 = Opcode.ld.toField) :
    decodeWord ir = .ld (ir.extractLsb' 9 3) (ir.extractLsb' 0 9) := by
  rw [decodeWord, Opcode.ofField_of_toField h]

theorem decodeWord_of_ldi {ir : Word} (h : ir.extractLsb' 12 4 = Opcode.ldi.toField) :
    decodeWord ir = .ldi (ir.extractLsb' 9 3) (ir.extractLsb' 0 9) := by
  rw [decodeWord, Opcode.ofField_of_toField h]

theorem decodeWord_of_ldr {ir : Word} (h : ir.extractLsb' 12 4 = Opcode.ldr.toField) :
    decodeWord ir = .ldr (ir.extractLsb' 9 3) (ir.extractLsb' 6 3) (ir.extractLsb' 0 6) := by
  rw [decodeWord, Opcode.ofField_of_toField h]

theorem decodeWord_of_lea {ir : Word} (h : ir.extractLsb' 12 4 = Opcode.lea.toField) :
    decodeWord ir = .lea (ir.extractLsb' 9 3) (ir.extractLsb' 0 9) := by
  rw [decodeWord, Opcode.ofField_of_toField h]

theorem decodeWord_of_st {ir : Word} (h : ir.extractLsb' 12 4 = Opcode.st.toField) :
    decodeWord ir = .st (ir.extractLsb' 9 3) (ir.extractLsb' 0 9) := by
  rw [decodeWord, Opcode.ofField_of_toField h]

theorem decodeWord_of_sti {ir : Word} (h : ir.extractLsb' 12 4 = Opcode.sti.toField) :
    decodeWord ir = .sti (ir.extractLsb' 9 3) (ir.extractLsb' 0 9) := by
  rw [decodeWord, Opcode.ofField_of_toField h]

theorem decodeWord_of_str {ir : Word} (h : ir.extractLsb' 12 4 = Opcode.str.toField) :
    decodeWord ir = .str (ir.extractLsb' 9 3) (ir.extractLsb' 6 3) (ir.extractLsb' 0 6) := by
  rw [decodeWord, Opcode.ofField_of_toField h]

namespace Machine

/-! ## What each instruction writes -/

theorem exec_ld (dr : RegIdx) (off : BitVec 9) (s : State) :
    exec (.ld dr off) s = .next (s.writeDest dr (s.readCell (s.pcRelative off))) := rfl

theorem exec_ldi (dr : RegIdx) (off : BitVec 9) (s : State) :
    exec (.ldi dr off) s = .next (s.writeDest dr (s.readCell (s.indirect off))) := rfl

theorem exec_ldr (dr base : RegIdx) (off : BitVec 6) (s : State) :
    exec (.ldr dr base off) s = .next (s.writeDest dr (s.readCell (s.basePlus base off))) := rfl

theorem exec_lea (dr : RegIdx) (off : BitVec 9) (s : State) :
    exec (.lea dr off) s = .next (s.writeDest dr (s.pcRelative off)) := rfl

theorem exec_st (sr : RegIdx) (off : BitVec 9) (s : State) :
    exec (.st sr off) s = .next (s.writeCell (s.pcRelative off) (s.readReg sr)) := rfl

theorem exec_sti (sr : RegIdx) (off : BitVec 9) (s : State) :
    exec (.sti sr off) s = .next (s.writeCell (s.indirect off) (s.readReg sr)) := rfl

theorem exec_str (sr base : RegIdx) (off : BitVec 6) (s : State) :
    exec (.str sr base off) s = .next (s.writeCell (s.basePlus base off) (s.readReg sr)) := rfl

/-! ## The other two address forms -/

/-- The pointer stands in the cell at the PC-relative address (rule R180). -/
theorem State.indirect_eq_readCell_plus16 (s : State) (off : BitVec 9) :
    s.indirect off = s.readCell (plus16 s.pc off.toInt) := by
  rw [State.indirect, s.pcRelative_eq_plus16 off (by decide)]

theorem State.basePlus_eq_plus16 (s : State) (base : RegIdx) (off : BitVec 6) :
    s.basePlus base off = plus16 (s.readReg base) off.toInt :=
  (plus16_toInt (s.readReg base) off (by decide)).symm

/-! ## The rules -/

/-- Settles O18: the address is `pcRelative`, and `writeDest_destWritten` is the write with its frame. -/
theorem loadPcRelative : Obligations.LoadPcRelative := by
  refine ⟨fun ir hop => decodeWord_of_ld hop, fun dr off s => ⟨_, exec_ld dr off s, ?_⟩⟩
  rw [← s.pcRelative_eq_plus16 off (by decide)]
  exact writeDest_destWritten s dr _

/-- Settles O19: both reads are of the old state, the pointer's by `indirect_eq_readCell_plus16`. -/
theorem loadIndirect : Obligations.LoadIndirect := by
  refine ⟨fun ir hop => decodeWord_of_ldi hop, fun dr off s => ⟨_, exec_ldi dr off s, ?_⟩⟩
  rw [← s.indirect_eq_readCell_plus16 off]
  exact writeDest_destWritten s dr _

/-- Settles O20: the base is read from the old state, so DR may be the base. -/
theorem loadBaseOffset : Obligations.LoadBaseOffset := by
  refine ⟨fun ir hop => decodeWord_of_ldr hop, fun dr base off s => ⟨_, exec_ldr dr base off s, ?_⟩⟩
  rw [← s.basePlus_eq_plus16 base off]
  exact writeDest_destWritten s dr _

/-- Settles O21: as O18, with the address itself as the value. -/
theorem loadEffectiveAddress : Obligations.LoadEffectiveAddress := by
  refine ⟨fun ir hop => decodeWord_of_lea hop, fun dr off s => ⟨_, exec_lea dr off s, ?_⟩⟩
  rw [← s.pcRelative_eq_plus16 off (by decide)]
  exact writeDest_destWritten s dr _

/-- Settles O22: `writeCell_cellStored` is the store with its frame. -/
theorem storePcRelative : Obligations.StorePcRelative :=
  ⟨fun _ hop => decodeWord_of_st hop, fun sr off s =>
    ⟨_, exec_st sr off s, s.pcRelative_eq_plus16 off (by decide), writeCell_cellStored s _ _⟩⟩

/-- Settles O23: as O22 at the cell the pointer names; the pointer is read before the store, which may overwrite it. -/
theorem storeIndirect : Obligations.StoreIndirect :=
  ⟨fun _ hop => decodeWord_of_sti hop, fun sr off s =>
    ⟨_, exec_sti sr off s, s.indirect_eq_readCell_plus16 off, writeCell_cellStored s _ _⟩⟩

/-- Settles O24: as O22 at base plus offset; a store writes no register, so SR may be the base. -/
theorem storeBaseOffset : Obligations.StoreBaseOffset :=
  ⟨fun _ hop => decodeWord_of_str hop, fun sr base off s =>
    ⟨_, exec_str sr base off s, s.basePlus_eq_plus16 base off, writeCell_cellStored s _ _⟩⟩

end Machine
end Sys2Proof
end

section
/-! Reset (70_reset_and_hazards.md rules R290 and R291): what each element of the state reads as after a reset, at every
setting of the parameters. -/

namespace Sys2Proof.Machine

/-! ## The elements after reset -/

@[simp] theorem State.pc_resetWith (p : Params) (env : Environment) : (State.resetWith p env).pc = p.pcStart := rfl
@[simp] theorem State.cond_resetWith (p : Params) (env : Environment) : (State.resetWith p env).cond = p.condReset := rfl
@[simp] theorem State.run_resetWith (p : Params) (env : Environment) : (State.resetWith p env).run = .running := rfl
@[simp] theorem State.input_resetWith (p : Params) (env : Environment) : (State.resetWith p env).input = env.input := rfl
@[simp] theorem State.output_resetWith (p : Params) (env : Environment) : (State.resetWith p env).output = [] := rfl
@[simp] theorem State.io_resetWith (p : Params) (env : Environment) : (State.resetWith p env).io = p.io := rfl

@[simp] theorem State.readReg_resetWith (p : Params) (env : Environment) (r : RegIdx) :
    (State.resetWith p env).readReg r = p.regReset[r.toNat]'r.isLt := rfl

@[simp] theorem State.readCell_resetWith (p : Params) (env : Environment) (a : Word) :
    (State.resetWith p env).readCell a = memRead p.memReset a := rfl

/-! ## The rule -/

/-- Settles O57: one law of `resetWith` for each element, the registers and the cells through their accessors. -/
theorem resetSetsEveryElement : Obligations.ResetSetsEveryElement := fun p env =>
  ⟨State.pc_resetWith p env, State.cond_resetWith p env, State.readReg_resetWith p env, State.readCell_resetWith p env,
    State.run_resetWith p env, State.input_resetWith p env, State.output_resetWith p env, State.io_resetWith p env⟩

end Sys2Proof.Machine
end

section
/-! Decoding against encoding (30_encoding.md sections 2 to 5): on words and on their bytes, and what a step fetches
(40_cycle.md section 1). -/

namespace Sys2Proof

/-! ## The decoder by opcode -/

theorem decodeWord_of_trap {ir : Word} (h : ir.extractLsb' 12 4 = Opcode.trap.toField) :
    decodeWord ir = decodeTrap (ir.extractLsb' 8 4) (ir.extractLsb' 0 8) := by
  rw [decodeWord, Opcode.ofField_of_toField h]

/-! ## Vectors -/

/-- The service vectors are the six of the map (rule R88). -/
theorem isServiceVector_iff (v : Vect) :
    isServiceVector v = true ↔
      v = 0x20#8 ∨ v = 0x21#8 ∨ v = 0x22#8 ∨ v = 0x23#8 ∨ v = 0x24#8 ∨ v = 0x25#8 := by
  simp only [isServiceVector, Bool.and_eq_true, decide_eq_true_eq]
  bv_omega

theorem decodeTrap_of_not_service (ign : BitVec 4) {v : Vect} (h : isServiceVector v = false) :
    decodeTrap ign v = .trapUnknown ign v := by
  have hv : ¬isServiceVector v = true := by simp [h]
  simp only [isServiceVector_iff, not_or] at hv
  obtain ⟨h0, h1, h2, h3, h4, h5⟩ := hv
  simp only [decodeTrap, h0, h1, h2, h3, h4, h5, if_false]

/-- What `decodeTrap` gives is well-formed and carries its vector and its ignored bits. -/
theorem decodeTrap_wf_encode (ign : BitVec 4) (v : Vect) :
    (decodeTrap ign v).wf = true ∧ encode (decodeTrap ign v) = encodeTrap ign v := by
  cases h : isServiceVector v with
  | false =>
    rw [decodeTrap_of_not_service ign h]
    exact ⟨by simp [Instr.wf, h], rfl⟩
  | true =>
    rcases (isServiceVector_iff v).mp h with rfl | rfl | rfl | rfl | rfl | rfl <;> exact ⟨rfl, rfl⟩

theorem decodeWord_encodeTrap (ign : BitVec 4) (v : Vect) : decodeWord (encodeTrap ign v) = decodeTrap ign v := by
  have hop : (encodeTrap ign v).extractLsb' 12 4 = Opcode.trap.toField := Laws.OpcodeField.trapUnknown ign v
  rw [decodeWord_of_trap hop]
  simp (disch := decide) only [encodeTrap, BitVec.extractLsb'_append_eq_of_add_le,
    BitVec.extractLsb'_append_eq_of_le, Nat.reduceSub, BitVec.extractLsb'_eq_self]

/-! ## Encoding what was decoded -/

/-- A bit of a word as a field of width one. -/
theorem ofBool_getLsbD (w : Word) (k : Nat) : BitVec.ofBool (w.getLsbD k) = w.extractLsb' k 1 := by
  apply BitVec.eq_of_getLsbD_eq
  intro i hi
  obtain rfl : i = 0 := by omega
  simp

theorem extractLsb'_of_set {w : Word} {k : Nat} (h : w.getLsbD k = true) : 0b1#1 = w.extractLsb' k 1 := by
  rw [← ofBool_getLsbD, h]
  rfl

theorem extractLsb'_of_clear {w : Word} {k : Nat} (h : ¬w.getLsbD k = true) : 0b0#1 = w.extractLsb' k 1 := by
  rw [← ofBool_getLsbD, Bool.eq_false_iff.mpr h]
  rfl

/-- No word is rejected: the vector is the one field that a well-formed instruction restricts. -/
theorem wf_decodeWord (ir : Word) : (decodeWord ir).wf = true := by
  cases ho : Opcode.ofField (ir.extractLsb' 12 4) <;> simp only [decodeWord, ho]
  case trap =>
    obtain ⟨hwf, -⟩ := decodeTrap_wf_encode (ir.extractLsb' 8 4) (ir.extractLsb' 0 8)
    exact hwf
  case add | and | jsr => split <;> rfl
  case br | ld | st | ldr | str | none1000 | not | ldi | sti | jmp | none1101 | lea => rfl

/-- Adjacent fields of a word append to one field, and the fields of a format together are the whole word. -/
theorem encode_decodeWord (ir : Word) : encode (decodeWord ir) = ir := by
  have hop := (Opcode.toField_ofField (ir.extractLsb' 12 4)).symm
  have whole : ir.extractLsb' 0 16 = ir := BitVec.extractLsb'_eq_self
  cases ho : Opcode.ofField (ir.extractLsb' 12 4) <;> rw [ho] at hop
  case trap =>
    obtain ⟨-, henc⟩ := decodeTrap_wf_encode (ir.extractLsb' 8 4) (ir.extractLsb' 0 8)
    rw [decodeWord_of_trap hop, henc, encodeTrap, ← hop]
    simp only [BitVec.extractLsb'_append_extractLsb'_eq_extractLsb']
    exact whole
  case add | and | jsr =>
    simp only [decodeWord, ho]
    split
    · rename_i hbit
      simp only [encode, ← hop, extractLsb'_of_set hbit, BitVec.extractLsb'_append_extractLsb'_eq_extractLsb']
      exact whole
    · rename_i hbit
      simp only [encode, ← hop, extractLsb'_of_clear hbit, BitVec.extractLsb'_append_extractLsb'_eq_extractLsb']
      exact whole
  case br | ld | st | ldr | str | none1000 | not | ldi | sti | jmp | none1101 | lea =>
    simp only [decodeWord, ho, encode, ← hop, ofBool_getLsbD, BitVec.extractLsb'_append_extractLsb'_eq_extractLsb']
    exact whole

/-- The opcode field of the word of any instruction (rules R81 and R84). -/
theorem opcodeField_encode (i : Instr) : (encode i).extractLsb' 12 4 = i.opcode.toField := by
  open Laws.OpcodeField in
  cases i with
  | br a b c d => exact br a b c d
  | addReg a b c d => exact addReg a b c d
  | addImm a b c => exact addImm a b c
  | ld a b => exact ld a b
  | st a b => exact st a b
  | jsr a => exact jsr a
  | jsrr a b c => exact jsrr a b c
  | andReg a b c d => exact andReg a b c d
  | andImm a b c => exact andImm a b c
  | ldr a b c => exact ldr a b c
  | str a b c => exact str a b c
  | unimplemented1000 a => exact unimplemented1000 a
  | not a b c => exact not a b c
  | ldi a b => exact ldi a b
  | sti a b => exact sti a b
  | jmp a b c => exact jmp a b c
  | unimplemented1101 a => exact unimplemented1101 a
  | lea a b => exact lea a b
  | trapGetc a => exact trapGetc a
  | trapOut a => exact trapOut a
  | trapPuts a => exact trapPuts a
  | trapIn a => exact trapIn a
  | trapPutsp a => exact trapPutsp a
  | trapHalt a => exact trapHalt a
  | trapUnknown a b => exact trapUnknown a b

/-- Every field of a word stands where the decoder looks for it. -/
theorem decodeWord_encode {i : Instr} (hwf : i.wf = true) : decodeWord (encode i) = i := by
  have hop : Opcode.ofField ((encode i).extractLsb' 12 4) = i.opcode := Opcode.ofField_of_toField (opcodeField_encode i)
  cases i
  case trapUnknown ign v =>
    have hv : isServiceVector v = false := by simpa [Instr.wf] using hwf
    exact (decodeWord_encodeTrap ign v).trans (decodeTrap_of_not_service ign hv)
  case trapGetc ign | trapOut ign | trapPuts ign | trapIn ign | trapPutsp ign | trapHalt ign =>
    exact decodeWord_encodeTrap ign _
  case br | addReg | addImm | andReg | andImm | jsr | jsrr =>
    rw [decodeWord, hop]
    simp (disch := decide) only [Instr.opcode, encode, BitVec.extractLsb'_append_eq_of_le,
      BitVec.extractLsb'_append_eq_of_add_le, Nat.reduceSub, BitVec.extractLsb'_eq_self, BitVec.getLsbD_append]
    simp
  case ld | st | ldr | str | unimplemented1000 | not | ldi | sti | jmp | unimplemented1101 | lea =>
    rw [decodeWord, hop]
    simp (disch := decide) only [Instr.opcode, encode, BitVec.extractLsb'_append_eq_of_le,
      BitVec.extractLsb'_append_eq_of_add_le, Nat.reduceSub, BitVec.extractLsb'_eq_self]

/-! ## The opcode of a decoded word -/

theorem opcode_decodeWord (ir : Word) : (decodeWord ir).opcode = Opcode.ofField (ir.extractLsb' 12 4) := by
  have h := opcodeField_encode (decodeWord ir)
  rw [encode_decodeWord] at h
  exact (Opcode.ofField_of_toField h).symm

/-- The words of an opcode are a range of 4096. -/
theorem opcode_decodeWord_iff (ir : Word) (o : Opcode) :
    (decodeWord ir).opcode = o ↔
      4096 * o.toField.toNat ≤ ir.toNat ∧ ir.toNat < 4096 * o.toField.toNat + 4096 := by
  have field : (ir.extractLsb' 12 4).toNat = ir.toNat / 4096 := by
    simp [Nat.shiftRight_eq_div_pow]
    omega
  have : (decodeWord ir).opcode = o ↔ ir.extractLsb' 12 4 = o.toField := by
    rw [opcode_decodeWord]
    exact ⟨fun h => by rw [← h, Opcode.toField_ofField], Opcode.ofField_of_toField⟩
  rw [this, ← BitVec.toNat_inj, field]
  omega

/-! ## The bytes of a word -/

theorem decode_bytes (w : Word) (rest : List Byte) :
    decode (Machine.lowByte w :: Machine.highByte w :: rest) = .ok (decodeWord w, rest) :=
  congrArg (fun v => Except.ok (decodeWord v, rest)) (Machine.joinBytes_high_low w)

theorem Machine.highByte_eq_setWidth (w : Word) : Machine.highByte w = (w >>> 8).setWidth 8 :=
  BitVec.setWidth_ushiftRight_eq_extractLsb.symm

/-! ## The rules -/

/-- Settles O1: on the word by `decodeWord_encode`, and on its bytes since they join to the word. -/
theorem decodeEncodeRoundTrip : Obligations.DecodeEncodeRoundTrip := fun i hwf =>
  ⟨decodeWord_encode hwf, fun rest => by
    rw [← congrArg (fun j => Except.ok (j, rest)) (decodeWord_encode hwf)]
    exact decode_bytes (encode i) rest⟩

/-- Settles O2: `wf_decodeWord`, and the fields that the decoder takes apart put together again. -/
theorem everyWordIsOneInstruction : Obligations.EveryWordIsOneInstruction := fun ir =>
  ⟨wf_decodeWord ir, encode_decodeWord ir⟩

/-- Settles O3: twenty closed words. -/
theorem specWordsDecode : Obligations.SpecWordsDecode := by
  unfold Obligations.SpecWordsDecode
  decide

/-- Settles O4: the two opcode values without a handler, each as its range of words. -/
theorem unknownOpcodeWordRanges : Obligations.UnknownOpcodeWordRanges := by
  intro ir
  rw [opcode_decodeWord_iff, opcode_decodeWord_iff]
  simp only [Opcode.toField, BitVec.toNat_ofNat]
  omega

/-- Settles O5: a TRAP word decodes by its vector, which is one of the six or, past both ends of them, unknown. -/
theorem trapVectorDispatch : Obligations.TrapVectorDispatch := by
  intro ign v
  have service : ∀ n, v.toNat = n → v = BitVec.ofNat 8 n := fun n h => by simp [← h]
  refine ⟨fun h => ?_, fun h => ?_, fun h => ?_, fun h => ?_, fun h => ?_, fun h => ?_, fun h => ?_⟩
  case refine_7 =>
    have hv : isServiceVector v = false := by simp [isServiceVector]; omega
    exact (decodeWord_encodeTrap ign v).trans (decodeTrap_of_not_service ign hv)
  all_goals
    obtain rfl := service _ h
    exact decodeWord_encodeTrap ign _

namespace Machine

/-- Settles O44: the two bytes decode to the word's instruction, which `step_of_running` executes. -/
theorem stepRunsTheDecodedInstruction : Obligations.StepRunsTheDecodedInstruction := by
  intro s i rest hrun h
  rw [← highByte_eq_setWidth, ← lowByte_eq_setWidth, decode_bytes] at h
  cases h
  rw [plus16_one]
  exact ⟨wf_decodeWord _, encode_decodeWord _, step_of_running hrun⟩

/-- Settles O45: the next fetch reads the placed word, which decodes to its instruction. -/
theorem placedWordRunsNext : Obligations.PlacedWordRunsNext := by
  intro s i hwf
  have fetched : (s.withFetchWord 16 (encode i).toNat).fetchWord = encode i := by
    have hw : BitVec.ofNat 16 ((encode i).toNat % 2 ^ 16) = encode i := by
      rw [Nat.mod_eq_of_lt (encode i).isLt, BitVec.ofNat_toNat, BitVec.setWidth_eq]
    rw [State.withFetchWord, hw]
    exact s.readCell_writeCell_self s.pc (encode i)
  rw [step_of_running rfl, fetched, decodeWord_encode hwf, plus16_one]
  rfl

end Machine
end Sys2Proof
end

section
/-! How a cycle ends, and the invariant (60_exceptions.md section 1, 10_state.md section 8). -/

namespace Sys2Proof.Machine

/-! ## What is unchanged -/

theorem SinkOnly.pc {s t : State} (h : SinkOnly s t) : t.pc = s.pc := by
  obtain ⟨as, out, rfl⟩ := h
  rfl

theorem SinkOnly.run {s t : State} (h : SinkOnly s t) : t.run = s.run := by
  obtain ⟨as, out, rfl⟩ := h
  rfl

theorem SinkOnly.mem {s t : State} (h : SinkOnly s t) : t.mem = s.mem := by
  obtain ⟨as, out, rfl⟩ := h
  rfl

theorem State.fetchAddr_eq_plus16 (s : State) : s.fetchAddr = plus16 s.pc (-1) := (plus16_neg_one s.pc).symm

theorem SinkOnly.fetchAddr {s t : State} (h : SinkOnly s t) : t.fetchAddr = plus16 s.pc (-1) := by
  rw [t.fetchAddr_eq_plus16, h.pc]

/-! ## GETC and IN -/

theorem opcode_of_readsInput {i : Instr} (h : readsInput i = true) : i.opcode = .trap := by
  cases i <;> cases h <;> rfl

theorem not_mustWait_of_not_trap {i : Instr} (h : i.opcode ≠ .trap) (s : State) : ¬mustWait i s :=
  fun ⟨reads, _⟩ => h (opcode_of_readsInput reads)

/-- A GETC or IN whose source has nothing yet holds the core. -/
theorem exec_of_notYet {i : Instr} {s : State} {rest : InputSource} (reads : readsInput i = true)
    (h : s.input.answer = .notYet rest) : exec i s = .next (s.hold rest) := by
  cases i <;> cases reads
  case trapGetc g => simp only [exec, execGetc, State.inByte, h, State.takeInput]
  case trapIn g => simp only [exec, execIn, State.inByte, h]

theorem run_of_mustWait {i : Instr} {s t : State} (hwait : mustWait i s) (h : exec i s = .next t) : t.run = s.run := by
  obtain ⟨reads, rest, ha⟩ := hwait
  rw [exec_of_notYet reads ha] at h
  cases h
  rfl

/-! ## How a cycle ends -/

theorem exec_run_of_unimplemented {i : Instr} {s t : State} (hop : i.opcode = .none1000 ∨ i.opcode = .none1101)
    (h : exec i s = .next t) : t.run = .fatal (.unknownOpcode ⟨encode i, s.fetchAddr⟩) := by
  cases i
  case unimplemented1000 | unimplemented1101 =>
    cases h
    rfl
  all_goals simp [Instr.opcode] at hop

/-- Settles O51: the traps by their inversion lemma, the two opcodes without a handler by their meaning, and every other
instruction keeps RUN. -/
theorem howACycleEnds : Obligations.HowACycleEnds := by
  intro i s t hrun h
  by_cases htrap : i.opcode = .trap
  · cases trap_cases htrap h with
    | written _ kept => exact .inl (kept.run.trans hrun)
    | halted u isHalt => exact .inr (.inl ⟨rfl, isHalt⟩)
    | outputFailed u can writes kept =>
      rw [← kept.fetchAddr]
      exact .inr (.inr (.inr (.inr (.inr ⟨rfl, can, kept.readReg 0#3, writes⟩))))
    | answered u answer reads kept _ ready =>
      rw [← kept.fetchAddr]
      cases answer with
      | byte b rest => exact .inl (kept.run.trans hrun)
      | failed rest => exact .inr (.inr (.inr (.inr (.inl ⟨rfl, reads, kept.readReg 0#3⟩))))
      | notYet rest => exact absurd rfl (ready rest)
    | held rest => exact .inl hrun
    | unknownVector unknown =>
      rw [← s.fetchAddr_eq_plus16]
      exact .inr (.inr (.inr (.inl ⟨rfl, unknown⟩)))
  · by_cases hop : i.opcode = .none1000 ∨ i.opcode = .none1101
    · rw [← s.fetchAddr_eq_plus16]
      exact .inr (.inr (.inl ⟨exec_run_of_unimplemented hop h, hop⟩))
    · obtain ⟨h1000, h1101⟩ := not_or.mp hop
      have frame : ExecFrame i s t := exec_execFrame (not_mustWait_of_not_trap htrap s) h
      exact .inl ((frame.run htrap h1000 h1101).trans hrun)

/-! ## Canonical memory -/

theorem TrapEnd.mem {i : Instr} {s t : State} (h : TrapEnd i s t) : t.mem = s.mem := by
  cases h with
  | written _ kept => exact kept.mem
  | halted u _ kept => exact kept.mem
  | outputFailed u _ _ kept => exact kept.mem
  | answered u answer _ kept => cases answer <;> exact kept.mem
  | held => rfl
  | unknownVector => rfl

theorem execBr_mem {n z p : Bool} {off : BitVec 9} {s t : State} (h : execBr n z p off s = .next t) :
    t.mem = s.mem := by
  unfold execBr at h
  split at h <;> cases h <;> rfl

/-- The stores write one cell, no other instruction writes memory (20_memory.md rule R53). -/
theorem exec_memWf {i : Instr} {s t : State} (hwf : Memory.wf s.mem) (h : exec i s = .next t) : Memory.wf t.mem := by
  cases i
  case st | sti | str =>
    cases h
    exact memWrite_wf _ _ hwf
  case addReg | addImm | andReg | andImm | not | ld | ldi | ldr | lea | jmp | jsr | jsrr | unimplemented1000
      | unimplemented1101 =>
    cases h
    exact hwf
  case br => exact (execBr_mem h) ▸ hwf
  case trapGetc | trapOut | trapPuts | trapIn | trapPutsp | trapHalt | trapUnknown =>
    exact (trap_cases rfl h).mem ▸ hwf

/-! ## An empty buffer -/

theorem opcode_of_writesSink {i : Instr} (h : writesSink i = true) : i.opcode = .trap := by
  cases i <;> cases h <;> rfl

theorem writesSink_of_not_trap {i : Instr} (h : i.opcode ≠ .trap) : writesSink i = false :=
  Bool.eq_false_iff.mpr fun hsink => h (opcode_of_writesSink hsink)

/-- With a sink that never fails a trap keeps the output or leaves a flush at its end. -/
theorem TrapEnd.output_flushed {i : Instr} {s t : State} (h : TrapEnd i s t) (hsink : s.io.sinkCanFail = false) :
    t.output = s.output ∨ t.output.getLast? = some .flush := by
  cases h with
  | written _ _ _ flushed => exact .inr flushed
  | halted u _ _ grown => exact .inr (by simp [grown])
  | outputFailed _ can => simp [hsink] at can
  | answered u answer _ _ grown =>
    rw [(u.takeInput_sink _ answer).1]
    rcases grown with rfl | ⟨-, -, flushed⟩
    · exact .inl rfl
    · exact .inr flushed
  | held => exact .inl rfl
  | unknownVector => exact .inl rfl

theorem exec_output_flushed {i : Instr} {s t : State} (h : exec i s = .next t) (hsink : s.io.sinkCanFail = false) :
    t.output = s.output ∨ t.output.getLast? = some .flush := by
  by_cases htrap : i.opcode = .trap
  · exact (trap_cases htrap h).output_flushed hsink
  · have frame : ExecFrame i s t := exec_execFrame (not_mustWait_of_not_trap htrap s) h
    exact .inl (frame.sink (writesSink_of_not_trap htrap)).1

/-! ## Legal fatal outcomes -/

/-- An instruction that can end in a fatal error stores nothing and transfers no control. -/
theorem no_store_no_transfer {i : Instr} (h : i.opcode = .trap ∨ i.opcode = .none1000 ∨ i.opcode = .none1101)
    (s : State) : storedCells i s = [] ∧ transfersControl i = false := by
  cases i
  case trapGetc | trapOut | trapPuts | trapIn | trapPutsp | trapHalt | trapUnknown | unimplemented1000
      | unimplemented1101 => exact ⟨rfl, rfl⟩
  all_goals simp [Instr.opcode] at h

/-- After a cycle that ends in a fatal error the word and the address it was fetched from can still be seen. -/
theorem recorded_of_fatal {s t : State} {i : Instr} (hi : i = decodeWord s.fetchWord)
    (hop : i.opcode = .trap ∨ i.opcode = .none1000 ∨ i.opcode = .none1101) (frame : ExecFrame i s.advancePc t) :
    Diagnostic.Recorded ⟨encode i, plus16 s.advancePc.pc (-1)⟩ t := by
  obtain ⟨hcells, hcontrol⟩ := no_store_no_transfer hop s.advancePc
  have hpc : t.pc = s.advancePc.pc := frame.pc hcontrol
  have haddr : plus16 s.advancePc.pc (-1) = s.pc := by
    rw [← State.fetchAddr_eq_plus16, State.fetchAddr_advancePc]
  refine ⟨?_, ?_⟩
  · rw [t.fetchAddr_eq_plus16, hpc]
  · calc t.readCell (plus16 s.advancePc.pc (-1)) = s.advancePc.readCell s.pc := by
          rw [haddr, frame.cells s.pc (hcells ▸ List.not_mem_nil)]
      _ = s.fetchWord := rfl
      _ = encode i := by rw [hi, encode_decodeWord]

/-- A fatal outcome of a cycle is one of the table of rule R251. -/
theorem exec_fatalLegal {s t : State} {i : Instr} (hi : i = decodeWord s.fetchWord) (hrun : s.run = .running)
    (h : exec i s.advancePc = .next t) {c : FatalCause} (hc : t.run = .fatal c) : c.Legal t := by
  have hrun' : s.advancePc.run = .running := hrun
  have hwait : ¬mustWait i s.advancePc := fun hwait => by
    have := (run_of_mustWait hwait h).symm.trans hc
    rw [hrun'] at this
    cases this
  have frame : ExecFrame i s.advancePc t := exec_execFrame hwait h
  have hdecode : decodeWord (encode i) = i := decodeWord_encode (hi ▸ wf_decodeWord s.fetchWord)
  rcases howACycleEnds i s.advancePc t hrun' h with hr | ⟨hr, -⟩ | ⟨hr, hop⟩ | ⟨hr, g, v, hiv⟩ | ⟨hr, reads, -⟩ |
      ⟨hr, can, -, g, writes⟩ <;> rw [hr] at hc <;> cases hc
  · refine ⟨recorded_of_fatal hi (.inr hop) frame, ?_⟩
    rwa [hdecode]
  · refine ⟨recorded_of_fatal hi (.inl (by rw [hiv]; rfl)) frame, g, v, ?_⟩
    rwa [hdecode]
  · refine ⟨recorded_of_fatal hi (.inl (opcode_of_readsInput reads)) frame, ?_⟩
    rwa [hdecode]
  · have htrap : i.opcode = .trap := by rcases writes with rfl | rfl | rfl | rfl | rfl <;> rfl
    exact ⟨recorded_of_fatal hi (.inl htrap) frame, by rwa [hdecode], by rw [frame.io]; exact can⟩

/-- No instruction changes the parameters. -/
theorem exec_io {i : Instr} {s t : State} (h : exec i s = .next t) : t.io = s.io := by
  by_cases hwait : mustWait i s
  · obtain ⟨reads, rest, ha⟩ := hwait
    rw [exec_of_notYet reads ha] at h
    cases h
    rfl
  · exact (exec_execFrame hwait h).io

/-- Settles O55: in a terminal state nothing changes, and a cycle keeps each of the three clauses. -/
theorem stepKeepsInvariant : Obligations.StepKeepsInvariant := by
  intro s t inv h
  rcases step_next_cases h with ⟨hrun, hexec⟩ | ⟨-, rfl⟩
  · refine ⟨exec_memWf (s := s.advancePc) inv.memWf hexec, fun c hc => exec_fatalLegal rfl hrun hexec hc,
      fun hsink => ?_⟩
    rw [exec_io hexec] at hsink
    rcases exec_output_flushed hexec hsink with hkept | hflush
    · rw [hkept]
      exact inv.flushed hsink
    · simp [hflush]
  · exact inv

end Sys2Proof.Machine
end

section
/-! Single instructions: NOT in place (41_operate.md section 1), JSRR (42_control.md section 2), a store under the next
fetch (20_memory.md section 7) and the fatal decode errors (45_unimplemented.md; 44_trap.md section 2, unknown vector). -/

namespace Sys2Proof.Machine

/-! ## NOT twice -/

/-- Two writes of one register in a row are the second. -/
theorem DestWritten.overwritten {dr : RegIdx} {v w : Word} {s t u : State} (h : DestWritten dr v s t)
    (h' : DestWritten dr w t u) : DestWritten dr w s u where
  value := h'.value
  cond := h'.cond
  regs := fun r hr => (h'.regs r hr).trans (h.regs r hr)
  cells := fun a ha => (h'.cells a ha).trans (h.cells a ha)
  pc := h'.pc.trans h.pc
  run := h'.run.trans h.run
  streams := ⟨h'.streams.input.trans h.streams.input, h'.streams.output.trans h.streams.output,
    h'.streams.sinkAnswers.trans h.streams.sinkAnswers⟩
  io := h'.io.trans h.io

/-- Settles O13: the second NOT reads what the first one wrote, and complementing twice gives the word back. -/
theorem notTwiceRestores : Obligations.NotTwiceRestores := by
  intro dr sr g g' s
  have first : DestWritten dr (~~~s.readReg sr) s (s.writeDest dr (~~~s.readReg sr)) := writeDest_destWritten s dr _
  have second := writeDest_destWritten (s.writeDest dr (~~~s.readReg sr)) dr (~~~~~~s.readReg sr)
  rw [BitVec.not_not] at second
  refine ⟨_, _, exec_not dr sr g s, ?_, first.overwritten second⟩
  rw [exec_not, first.value, BitVec.not_not]

/-! ## JSRR -/

theorem exec_jsrr (ignHi : BitVec 2) (base : RegIdx) (ignLo : BitVec 6) (s : State) :
    exec (.jsrr ignHi base ignLo) s =
      .next ((s.writeReg regR7 s.pc).withPc ((s.writeReg regR7 s.pc).readReg base)) := rfl

/-- Settles O17: the base is read after the write of the link, by `readReg_writeReg`. -/
theorem callThroughRegister : Obligations.CallThroughRegister := by
  refine ⟨fun ir hop hform => by rw [decodeWord_of_jsr hop, hform]; rfl, fun ignHi base ignLo s => ?_⟩
  have target : (if base = 7#3 then s.pc else s.readReg base) = (s.writeReg regR7 s.pc).readReg base :=
    (s.readReg_writeReg regR7 base s.pc).symm
  rw [target]
  exact ⟨_, exec_jsrr ignHi base ignLo s, s.readReg_writeReg_self regR7 s.pc, link_controlAt s _ _⟩

/-! ## A store under the next fetch -/

/-- Settles O25: with offset 0 the store goes to the post-fetch PC, where the next fetch reads. -/
theorem storeSeenByNextFetch : Obligations.StoreSeenByNextFetch := by
  intro sr s hrun
  have address : s.pcRelative 0#9 = s.pc := by
    rw [s.pcRelative_eq_plus16 0#9 (by decide), plus16_eq_add]
    exact BitVec.add_zero s.pc
  refine ⟨_, exec_st sr 0#9 s, ?_⟩
  rw [address, step_of_running (s := s.writeCell s.pc (s.readReg sr)) hrun, plus16_one]
  have fetched : (s.writeCell s.pc (s.readReg sr)).fetchWord = s.readReg sr := s.readCell_writeCell_self s.pc _
  rw [fetched]
  rfl

/-! ## Fatal decode errors -/

theorem exec_unimplemented1000 (g : BitVec 12) (s : State) :
    exec (.unimplemented1000 g) s = .next (s.raiseFatal (.unknownOpcode ⟨0x8#4 ++ g, s.fetchAddr⟩)) := rfl

theorem exec_unimplemented1101 (g : BitVec 12) (s : State) :
    exec (.unimplemented1101 g) s = .next (s.raiseFatal (.unknownOpcode ⟨0xD#4 ++ g, s.fetchAddr⟩)) := rfl

theorem exec_trapUnknown (ign : BitVec 4) (v : Vect) (s : State) :
    exec (.trapUnknown ign v) s = .next (s.raiseFatal (.unknownTrapVector ⟨0xF#4 ++ ign ++ v, s.fetchAddr⟩)) := rfl

theorem raiseFatal_streamsKept (s : State) (c : FatalCause) : StreamsKept s (s.raiseFatal c) := ⟨rfl, rfl, rfl⟩

/-- Settles O26: each is `raiseFatal` with the word and the address as the information, and nothing else. -/
theorem unimplementedOpcodesAreFatal : Obligations.UnimplementedOpcodesAreFatal := by
  intro g s
  rw [← s.fetchAddr_eq_plus16]
  exact ⟨⟨_, exec_unimplemented1000 g s, raiseFatal_serviceKept s _ _, raiseFatal_streamsKept s _, rfl⟩,
    ⟨_, exec_unimplemented1101 g s, raiseFatal_serviceKept s _ _, raiseFatal_streamsKept s _, rfl⟩⟩

/-- Settles O27: the word decodes to the unknown vector by `trapVectorDispatch`, whose meaning is `raiseFatal`. -/
theorem unknownTrapVectorIsFatal : Obligations.UnknownTrapVectorIsFatal := by
  intro ign v s hv
  obtain ⟨-, -, -, -, -, -, unknown⟩ := trapVectorDispatch ign v
  rw [← s.fetchAddr_eq_plus16, unknown hv]
  exact ⟨_, exec_trapUnknown ign v s, exec_trapUnknown ign v s, raiseFatal_serviceKept s _ _,
    raiseFatal_streamsKept s _, rfl⟩

end Sys2Proof.Machine
end

section
/-! Ignored bits (30_encoding.md rule R86): a service reads its instruction word only to record it, so that another word
gives the same next state with that word in the diagnostic. -/

namespace Sys2Proof.Machine

/-- The state with another instruction word in the diagnostic of a fatal outcome. -/
def State.reword (ir : Word) (s : State) : State := s.withRun (s.run.withWord ir)

theorem State.reword_of_not_fatal {s : State} (ir : Word) (h : ∀ c, s.run ≠ .fatal c) : s.reword ir = s := by
  have same : s.run.withWord ir = s.run := by
    cases hr : s.run with
    | running => rfl
    | halted => rfl
    | fatal c => exact absurd hr (h c)
  rw [State.reword, same]
  rfl

theorem SinkOnly.not_fatal {s t : State} (hk : SinkOnly s t) (h : ∀ c, s.run ≠ .fatal c) : ∀ c, t.run ≠ .fatal c := by
  rwa [hk.run]

theorem State.failOutput_reword (s : State) (ir ir' : Word) : s.failOutput ir' = (s.failOutput ir).reword ir' := rfl

theorem State.flushOrFail_reword {s : State} (ir ir' : Word) (h : ∀ c, s.run ≠ .fatal c) :
    s.flushOrFail ir' = (s.flushOrFail ir).reword ir' := by
  simp only [State.flushOrFail]
  cases hs : s.outFlush with
  | accepted s' =>
    obtain ⟨-, kept, -⟩ := State.sinkTake_accepted hs
    exact (State.reword_of_not_fatal ir' (kept.not_fatal h)).symm
  | failed s' => exact s'.failOutput_reword ir ir'

theorem State.takeInput_reword {s : State} (ir ir' : Word) (answer : InputAnswer) (h : ∀ c, s.run ≠ .fatal c) :
    s.takeInput ir' answer = (s.takeInput ir answer).reword ir' := by
  cases answer with
  | failed rest => rfl
  | byte b rest => exact (State.reword_of_not_fatal (s := s.takeInput ir (.byte b rest)) ir' h).symm
  | notYet rest => exact (State.reword_of_not_fatal (s := s.takeInput ir (.notYet rest)) ir' h).symm

theorem promptThenTake_reword {s : State} (ir ir' : Word) (answer : InputAnswer) (h : ∀ c, s.run ≠ .fatal c) :
    promptThenTake ir' answer s = (promptThenTake ir answer s).reword ir' := by
  simp only [promptThenTake]
  cases hs : s.outBytes s.io.inPrompt with
  | failed s' => exact s'.failOutput_reword ir ir'
  | accepted s' =>
    obtain ⟨-, kept⟩ := State.outBytes_accepted hs
    dsimp only
    cases hs' : s'.outFlush with
    | failed s'' => exact s''.failOutput_reword ir ir'
    | accepted s'' =>
      obtain ⟨-, kept', -⟩ := State.sinkTake_accepted hs'
      exact State.takeInput_reword ir ir' answer ((kept.trans kept').not_fatal h)

theorem stringService_reword {s : State} (emit : Word → List Byte) (ir ir' : Word) (h : ∀ c, s.run ≠ .fatal c) :
    stringService emit ir' s = mapNext (·.reword ir') (stringService emit ir s) := by
  simp only [stringService]
  cases hs : scanString emit (scanFuel s) (s.readReg regR0) s with
  | ended s' =>
    obtain ⟨kept, -⟩ := scanString_ended hs
    exact congrArg _ (State.flushOrFail_reword ir ir' (kept.not_fatal h))
  | failed s' => exact congrArg Host.Outcome.next (s'.failOutput_reword ir ir')
  | endless => rfl

/-- The traps, each as a function of its ignored bits. -/
def trapForms (f : BitVec 4 → Instr) : Prop :=
  f ∈ [Instr.trapGetc, Instr.trapOut, Instr.trapPuts, Instr.trapIn, Instr.trapPutsp, Instr.trapHalt] ∨
    ∃ v, f = fun ign => Instr.trapUnknown ign v

/-- A trap with other ignored bits ends in the same state, but for the recorded word. -/
theorem exec_trap_reword {f : BitVec 4 → Instr} (hf : trapForms f) (g g' : BitVec 4) {s : State}
    (h : ∀ c, s.run ≠ .fatal c) : exec (f g') s = mapNext (·.reword (encode (f g'))) (exec (f g) s) := by
  simp only [trapForms, List.mem_cons, List.not_mem_nil, or_false] at hf
  rcases hf with (rfl | rfl | rfl | rfl | rfl | rfl) | ⟨v, rfl⟩
  · exact congrArg _ (State.takeInput_reword _ _ _ h)
  · simp only [exec, execOut]
    cases hs : s.outByte (lowByte (s.readReg regR0)) with
    | accepted s' =>
      obtain ⟨-, kept, -⟩ := State.sinkTake_accepted hs
      exact congrArg _ (State.flushOrFail_reword _ _ (kept.not_fatal h))
    | failed s' => rfl
  · exact stringService_reword _ _ _ h
  · simp only [exec, execIn]
    cases s.inByte with
    | notYet rest => exact congrArg _ (State.reword_of_not_fatal (s := s.hold rest) _ h).symm
    | byte b rest => exact congrArg _ (promptThenTake_reword _ _ _ h)
    | failed rest => exact congrArg _ (promptThenTake_reword _ _ _ h)
  · exact stringService_reword _ _ _ h
  · simp only [exec, execHalt]
    cases s.outFlush <;> rfl
  · rfl

/-- Settles O6: the forms without a diagnostic do not read their ignored bits at all; the traps by `exec_trap_reword`;
the two opcodes without a handler record the word and do nothing else. -/
theorem ignoredBitsChangeNothing : Obligations.IgnoredBitsChangeNothing := by
  refine ⟨fun _ _ _ _ _ _ => ⟨rfl, rfl⟩, fun _ _ _ _ _ => rfl, fun _ _ _ _ _ _ => rfl, fun _ _ _ _ _ _ => rfl, ?_, ?_⟩
  · intro f g g' s hf hrun
    have reworded := exec_trap_reword hf g g' hrun
    exact ⟨fun t h => by rw [reworded, h]; rfl, fun r h => by rw [reworded, h]; rfl⟩
  · intro f g g' s t hf h
    simp only [List.mem_cons, List.not_mem_nil, or_false] at hf
    rcases hf with rfl | rfl <;> cases h <;> rfl

end Sys2Proof.Machine
end

section
/-! The services with a sink that never fails (44_trap.md section 2). -/

namespace Sys2Proof.Machine

/-- Settles O28: one equation of `InputSource.answer` for each form. -/
theorem inputSourceAnswers : Obligations.InputSourceAnswers := fun _ _ _ _ => ⟨rfl, rfl, rfl, rfl, rfl, rfl⟩

/-! ## Each service as an equation -/

theorem exec_trapGetc (ign : BitVec 4) (s : State) :
    exec (.trapGetc ign) s = .next (s.takeInput (0xF#4 ++ ign ++ 0x20#8) s.input.answer) := rfl

theorem exec_trapIn_of_ready (ign : BitVec 4) {s : State} (ready : ∀ rest, s.input.answer ≠ .notYet rest) :
    exec (.trapIn ign) s = .next (promptThenTake (0xF#4 ++ ign ++ 0x23#8) s.input.answer s) := by
  simp only [exec, execIn, State.inByte]
  cases ha : s.input.answer with
  | byte b rest => rfl
  | failed rest => rfl
  | notYet rest => exact absurd ha (ready rest)

theorem exec_trapPuts (ign : BitVec 4) (s : State) :
    exec (.trapPuts ign) s = stringService putsBytes (encode (.trapPuts ign)) s := rfl

theorem exec_trapPutsp (ign : BitVec 4) (s : State) :
    exec (.trapPutsp ign) s = stringService putspBytes (encode (.trapPutsp ign)) s := rfl

theorem exec_trapOut_of_cannot_fail (ign : BitVec 4) {s : State} (hsink : s.io.sinkCanFail = false) :
    exec (.trapOut ign) s = .next (s.withOutput (s.output ++ [.byte ((s.readReg regR0).setWidth 8), .flush])) := by
  simp only [exec, execOut, State.outByte, State.sinkTake_of_cannot_fail _ hsink, lowByte_eq_setWidth]
  rw [State.flushOrFail_of_cannot_fail _ (by simpa using hsink)]
  simp [State.withOutput]

theorem exec_trapHalt_of_cannot_fail (ign : BitVec 4) {s : State} (hsink : s.io.sinkCanFail = false) :
    exec (.trapHalt ign) s = .next ((s.withOutput (s.output ++ [.flush])).withRun .halted) := by
  simp only [exec, execHalt, State.outFlush_of_cannot_fail hsink]

theorem exec_trapIn_of_cannot_fail (ign : BitVec 4) {s : State} (hsink : s.io.sinkCanFail = false)
    (ready : ∀ rest, s.input.answer ≠ .notYet rest) :
    exec (.trapIn ign) s =
      .next ((s.withOutput (s.output ++ s.io.inPrompt.map .byte ++ [.flush])).takeInput
        (0xF#4 ++ ign ++ 0x23#8) s.input.answer) := by
  rw [exec_trapIn_of_ready ign ready, promptThenTake_of_cannot_fail _ _ hsink]

/-! ## What is kept -/

theorem SinkOnly.withOutput (s : State) (out : List SinkEvent) : SinkOnly s (s.withOutput out) :=
  ⟨s.sinkAnswers, out, rfl⟩

theorem State.readReg_takeInput_byte (s : State) (ir : Word) (b : Byte) (rest : InputSource) :
    ((s.takeInput ir (.byte b rest)).readReg 0#3).toNat = b.toNat := by
  have written : (s.takeInput ir (.byte b rest)).readReg 0#3 = zextByte b :=
    (s.withInput rest).readReg_writeReg_self regR0 (zextByte b)
  rw [written, toNat_zextByte]

theorem State.takeInput_failed_serviceKept (s : State) (ir : Word) (rest : InputSource) (results : List RegIdx) :
    ServiceKept results s (s.takeInput ir (.failed rest)) :=
  ⟨fun _ _ => rfl, fun _ _ => rfl, rfl, rfl, rfl⟩

/-! ## GETC and IN -/

/-- Settles O29: the byte reaches R0 alone, and the sink is not asked. -/
theorem getcReadsOneByte : Obligations.GetcReadsOneByte := by
  intro ign b rest s ha
  have h := exec_trapGetc ign s
  rw [ha] at h
  exact ⟨_, h, s.readReg_takeInput_byte _ b rest, rfl, rfl, rfl, rfl, s.takeInput_serviceKept _ (by simp)⟩

/-- Settles O30: as O29 from the state with the prompt and the flush in the output. -/
theorem inPromptsThenReadsOneByte : Obligations.InPromptsThenReadsOneByte := by
  intro ign b rest s ha hsink
  have h := exec_trapIn_of_cannot_fail ign hsink (by simp [ha])
  rw [ha] at h
  exact ⟨_, h, State.readReg_takeInput_byte _ _ b rest, rfl, rfl, rfl, rfl,
    ((SinkOnly.withOutput s _).serviceKept _).trans (State.takeInput_serviceKept _ _ (by simp))⟩

/-- Settles O31: the failed answer is taken from the old state by GETC, and by IN from the state with the prompt and the
flush in the output. -/
theorem inputFailureIsFatal : Obligations.InputFailureIsFatal := by
  intro ign rest s ha
  rw [← s.fetchAddr_eq_plus16]
  refine ⟨?_, fun hsink => ?_⟩
  · have h := exec_trapGetc ign s
    rw [ha] at h
    exact ⟨_, h, s.takeInput_failed_serviceKept _ rest _, rfl, rfl, rfl⟩
  · have h := exec_trapIn_of_cannot_fail ign hsink (by simp [ha])
    rw [ha] at h
    exact ⟨_, h, ((SinkOnly.withOutput s _).serviceKept _).trans (State.takeInput_failed_serviceKept _ _ rest _),
      rfl, rfl, rfl⟩

/-! ## OUT and HALT -/

/-- Settles O34: with a sink that never fails OUT is one growth of the output. -/
theorem outWritesLowByte : Obligations.OutWritesLowByte := fun ign s hsink =>
  ⟨_, exec_trapOut_of_cannot_fail ign hsink, (SinkOnly.withOutput s _).serviceKept _, rfl, rfl, rfl, rfl⟩

/-- Settles O38: with a sink that never fails HALT is one flush and the outcome. -/
theorem haltEndsTheRun : Obligations.HaltEndsTheRun := fun ign s hsink =>
  ⟨_, exec_trapHalt_of_cannot_fail ign hsink,
    ((SinkOnly.withOutput s _).serviceKept _).trans (withRun_serviceKept _ _ _), rfl, rfl, rfl, rfl⟩

/-! ## The bytes of a string, as events -/

theorem putsBytes_events (ws : List Word) :
    (ws.flatMap putsBytes).map SinkEvent.byte = ws.map (fun w : Word => SinkEvent.byte (w.setWidth 8)) := by
  simp only [List.map_flatMap, putsBytes, List.map_cons, List.map_nil, lowByte_eq_setWidth]
  exact List.map_eq_flatMap.symm

theorem highByte_eq_zero_iff (w : Word) : highByte w = 0x00#8 ↔ w.toNat < 256 := by
  have hw := w.isLt
  rw [← BitVec.toNat_inj]
  simp only [highByte, BitVec.extractLsb'_toNat, Nat.shiftRight_eq_div_pow, BitVec.toNat_ofNat]
  omega

theorem putspBytes_events (ws : List Word) :
    (ws.flatMap putspBytes).map SinkEvent.byte =
      ws.flatMap (fun w : Word => if w.toNat < 256 then [SinkEvent.byte (w.setWidth 8)]
        else [SinkEvent.byte (w.setWidth 8), SinkEvent.byte ((w >>> 8).setWidth 8)]) := by
  rw [List.map_flatMap]
  congr 1
  funext w
  by_cases h : w.toNat < 256
  · simp [putspBytes, (highByte_eq_zero_iff w).mpr h, h, lowByte_eq_setWidth]
  · have hhigh : highByte w ≠ 0x00#8 := fun hz => h ((highByte_eq_zero_iff w).mp hz)
    rw [putspBytes, if_neg hhigh, if_neg h, lowByte_eq_setWidth, highByte_eq_setWidth]
    rfl

/-! ## PUTS and PUTSP -/

/-- The words before the first zero word are fewer than the cells, since the address wraps (rule R220). -/
theorem length_lt_of_terminated {s : State} {p : Word} {ws : List Word} (hne : ∀ w ∈ ws, w ≠ 0#16)
    (hws : ∀ k (h : k < ws.length), s.readCell (p + BitVec.ofNat 16 k) = ws[k])
    (hend : s.readCell (p + BitVec.ofNat 16 ws.length) = 0#16) : ws.length < 65536 := by
  by_contra hlen
  have hk : ws.length % 65536 < ws.length := by omega
  have wraps : BitVec.ofNat 16 ws.length = BitVec.ofNat 16 (ws.length % 65536) := BitVec.eq_of_toNat_eq (by simp)
  rw [wraps, hws _ hk] at hend
  exact hne _ (List.getElem_mem hk) hend

/-- A terminated string reaches the output whole. -/
theorem stringService_writes (emit : Word → List Byte) (ir : Word) {s : State} {ws : List Word}
    (hsink : s.io.sinkCanFail = false) (hne : ∀ w ∈ ws, w ≠ 0#16)
    (hws : ∀ k (h : k < ws.length), s.readCell (plus16 (s.readReg 0#3) k) = ws[k])
    (hend : s.readCell (plus16 (s.readReg 0#3) ws.length) = 0#16) :
    stringService emit ir s = .next (s.withOutput (s.output ++ (ws.flatMap emit).map .byte ++ [.flush])) := by
  simp only [plus16_natCast] at hws hend
  exact stringService_of_terminated emit ir hsink (length_lt_of_terminated hne hws hend) hne hws hend

/-- Settles O35: PUTS writes one byte of each word of the string. -/
theorem putsWritesTheString : Obligations.PutsWritesTheString := by
  intro ign s ws hsink hne hws hend
  have h := (exec_trapPuts ign s).trans (stringService_writes putsBytes _ hsink hne hws hend)
  rw [putsBytes_events] at h
  exact ⟨_, h, (SinkOnly.withOutput s _).serviceKept _, rfl, rfl, rfl, rfl⟩

/-- Settles O36: PUTSP writes one or two bytes of each word of the string. -/
theorem putspWritesThePackedString : Obligations.PutspWritesThePackedString := by
  intro ign s ws hsink hne hws hend
  have h := (exec_trapPutsp ign s).trans (stringService_writes putspBytes _ hsink hne hws hend)
  rw [putspBytes_events] at h
  exact ⟨_, h, (SinkOnly.withOutput s _).serviceKept _, rfl, rfl, rfl, rfl⟩

theorem stringService_of_ended {emit : Word → List Byte} (ir : Word) {s s' : State}
    (h : scanString emit (scanFuel s) (s.readReg regR0) s = .ended s') :
    stringService emit ir s = .next (s'.flushOrFail ir) := by
  rw [stringService, h]

theorem stringService_of_failed {emit : Word → List Byte} (ir : Word) {s s' : State}
    (h : scanString emit (scanFuel s) (s.readReg regR0) s = .failed s') :
    stringService emit ir s = .next (s'.failOutput ir) := by
  rw [stringService, h]

theorem stringService_of_endless {emit : Word → List Byte} (ir : Word) {s : State}
    (h : scanString emit (scanFuel s) (s.readReg regR0) s = .endless) :
    stringService emit ir s = .fault .endlessString := by
  rw [stringService, h]

/-- With a sink that never fails a string service completes, and memory holds a zero word, or it is endless, and memory
holds none. -/
theorem stringService_completes_or_hangs (emit : Word → List Byte) (ir : Word) {s : State}
    (hsink : s.io.sinkCanFail = false) :
    ((∃ t, stringService emit ir s = .next t) ∧ ∃ a, s.readCell a = 0#16) ∨
      (stringService emit ir s = .fault .endlessString ∧ ∀ a, s.readCell a ≠ 0#16) := by
  cases hs : scanString emit (scanFuel s) (s.readReg regR0) s with
  | ended s' =>
    obtain ⟨-, -, -, zero⟩ := scanString_ended hs
    exact .inl ⟨⟨_, stringService_of_ended ir hs⟩, zero⟩
  | failed s' =>
    obtain ⟨can, -, -⟩ := scanString_failed hs
    simp [hsink] at can
  | endless => exact .inr ⟨stringService_of_endless ir hs, scanString_endless_no_zero (Nat.le_add_left _ _) hs⟩

theorem stringService_completes_iff (emit : Word → List Byte) (ir : Word) {s : State}
    (hsink : s.io.sinkCanFail = false) :
    ((∃ t, stringService emit ir s = .next t) ↔ ∃ a, s.readCell a = 0#16) ∧
      (stringService emit ir s = .fault .endlessString ↔ ∀ a, s.readCell a ≠ 0#16) := by
  rcases stringService_completes_or_hangs emit ir hsink with ⟨⟨t, h⟩, a, ha⟩ | ⟨h, hne⟩
  · rw [h]
    exact ⟨iff_of_true ⟨t, rfl⟩ ⟨a, ha⟩, iff_of_false (fun e => nomatch e) (fun hne => hne a ha)⟩
  · rw [h]
    exact ⟨iff_of_false (fun ⟨_, e⟩ => nomatch e) (fun ⟨a, ha⟩ => hne a ha), iff_of_true rfl hne⟩

/-- Settles O37: both services are string services, for which `stringService_completes_iff` holds. -/
theorem stringServicesCompleteIffZeroWord : Obligations.StringServicesCompleteIffZeroWord := by
  intro ign s hsink
  rw [exec_trapPuts, exec_trapPutsp]
  obtain ⟨puts, putsHangs⟩ := stringService_completes_iff putsBytes (encode (.trapPuts ign)) hsink
  obtain ⟨putsp, putspHangs⟩ := stringService_completes_iff putspBytes (encode (.trapPutsp ign)) hsink
  exact ⟨puts, putsp, putsHangs, putspHangs⟩

end Sys2Proof.Machine
end

section
/-! The services with a sink that fails (44_trap.md section 2, failure of the streams): what the sink has accepted stays,
and the run ends in the fatal I/O error. -/

namespace Sys2Proof.Machine

/-- The end of a service whose sink has accepted `evs` and refused the next operation, `as` the answers left. -/
def State.cutOutput (s : State) (ir : Word) (evs : List SinkEvent) (as : List SinkAnswer) : State :=
  ((s.withSinkAnswers as).withOutput (s.output ++ evs)).failOutput ir

/-- A cut service has done what the sink accepted and raised the fatal error, and nothing else. -/
theorem State.cutOutput_serviceKept (s : State) (ir : Word) (evs : List SinkEvent) (as : List SinkAnswer) :
    ServiceKept [] s (s.cutOutput ir evs as) :=
  ⟨fun _ _ => rfl, fun _ _ => rfl, rfl, rfl, rfl⟩

theorem State.run_cutOutput (s : State) (ir : Word) (evs : List SinkEvent) (as : List SinkAnswer) :
    (s.cutOutput ir evs as).run = .fatal (.outputFailed ⟨ir, plus16 s.pc (-1)⟩) := by
  rw [← s.fetchAddr_eq_plus16]
  rfl

/-! ## The cut at one operation -/

theorem State.sinkTake_of_fail {s : State} {as : List SinkAnswer} (e : SinkEvent) (hcan : s.io.sinkCanFail = true)
    (has : s.sinkAnswers = .fail :: as) : s.sinkTake e = .failed (s.withSinkAnswers as) := by
  simp only [State.sinkTake, hcan, if_true, has]

theorem State.sinkTake_of_ok {s : State} {as : List SinkAnswer} (e : SinkEvent) (hcan : s.io.sinkCanFail = true)
    (has : s.sinkAnswers = .ok :: as) :
    s.sinkTake e = .accepted ((s.withSinkAnswers as).withOutput (s.output ++ [e])) := by
  simp only [State.sinkTake, hcan, if_true, has]

/-- A closing flush that fails after `evs` were accepted. -/
theorem State.flushOrFail_cut {s : State} (ir : Word) (evs : List SinkEvent) {as : List SinkAnswer}
    (hcan : s.io.sinkCanFail = true) :
    ((s.withSinkAnswers (.fail :: as)).withOutput (s.output ++ evs)).flushOrFail ir = s.cutOutput ir evs as := by
  simp only [State.flushOrFail, State.outFlush]
  rw [State.sinkTake_of_fail .flush (by exact hcan) rfl]
  rfl

/-! ## OUT, HALT and IN -/

theorem exec_trapOut_cut_at_flush (ign : BitVec 4) {s : State} {as : List SinkAnswer} (hcan : s.io.sinkCanFail = true)
    (has : s.sinkAnswers = .ok :: .fail :: as) :
    exec (.trapOut ign) s =
      .next (s.cutOutput (0xF#4 ++ ign ++ 0x21#8) [.byte ((s.readReg regR0).setWidth 8)] as) := by
  simp only [exec, execOut, State.outByte, State.sinkTake_of_ok _ hcan has, lowByte_eq_setWidth]
  exact congrArg _ (State.flushOrFail_cut _ _ hcan)

theorem promptThenTake_cut {s : State} {k : Nat} {as : List SinkAnswer} (ir : Word) (answer : InputAnswer)
    (hcan : s.io.sinkCanFail = true) (has : s.sinkAnswers = List.replicate k .ok ++ .fail :: as)
    (hk : k ≤ s.io.inPrompt.length) :
    promptThenTake ir answer s = s.cutOutput ir ((s.io.inPrompt.map .byte).take k) as := by
  rcases Nat.lt_or_eq_of_le hk with hlt | rfl
  · simp only [promptThenTake, State.outBytes_cut hcan has hlt, List.map_take]
    rfl
  · simp only [promptThenTake, State.outBytes_all hcan has, State.outFlush]
    rw [State.sinkTake_of_fail .flush (by exact hcan) rfl, List.take_of_length_le (by simp)]
    rfl

/-! ## PUTS and PUTSP -/

theorem putsBytes_ne_nil (w : Word) : putsBytes w ≠ [] := by simp [putsBytes]

theorem putspBytes_ne_nil (w : Word) : putspBytes w ≠ [] := by
  unfold putspBytes
  split <;> simp

theorem length_le_length_flatMap {emit : Word → List Byte} (hemit : ∀ w, emit w ≠ []) (ws : List Word) :
    ws.length ≤ (ws.flatMap emit).length := by
  induction ws with
  | nil => simp
  | cons w ws ih =>
    have hpos : 0 < (emit w).length := List.length_pos_of_ne_nil (hemit w)
    simp only [List.flatMap_cons, List.length_append, List.length_cons]
    omega

/-- A string service whose sink accepts `k` bytes and then refuses: inside the string, or at the closing flush. -/
theorem stringService_cut {emit : Word → List Byte} (hemit : ∀ w, emit w ≠ []) (ir : Word) {s : State} {k : Nat}
    {as : List SinkAnswer} {ws : List Word} (hcan : s.io.sinkCanFail = true)
    (has : s.sinkAnswers = List.replicate k .ok ++ .fail :: as) (hne : ∀ w ∈ ws, w ≠ 0#16)
    (hws : ∀ j (h : j < ws.length), s.readCell (plus16 (s.readReg 0#3) j) = ws[j])
    (hk : k < (ws.flatMap emit).length ∨
      k = (ws.flatMap emit).length ∧ s.readCell (plus16 (s.readReg 0#3) ws.length) = 0#16) :
    stringService emit ir s = .next (s.cutOutput ir (((ws.flatMap emit).map .byte).take k) as) := by
  simp only [plus16_natCast] at hws hk
  have hlen : s.sinkAnswers.length = k + (as.length + 1) := by simp [has]
  rcases hk with hlt | ⟨rfl, hend⟩
  · have hfuel : k < scanFuel s := by unfold scanFuel; omega
    have scan := scanString_cut emit hemit (p := s.readReg regR0) hcan has hfuel hne hws hlt
    rw [stringService_of_failed ir scan, List.map_take]
    rfl
  · have hfuel : ws.length < scanFuel s := by
      have := length_le_length_flatMap hemit ws
      unfold scanFuel
      omega
    have scan := scanString_all emit (p := s.readReg regR0) hcan has hfuel hne hws hend
    rw [stringService_of_ended ir scan, State.flushOrFail_cut ir _ hcan, List.take_of_length_le (by simp)]

/-- A sink that refuses at once cuts a string service of any string, the empty one at its flush. -/
theorem stringService_cut_at_once {emit : Word → List Byte} (hemit : ∀ w, emit w ≠ []) (ir : Word) {s : State}
    {as : List SinkAnswer} (hcan : s.io.sinkCanFail = true) (has : s.sinkAnswers = .fail :: as) :
    stringService emit ir s = .next (s.cutOutput ir [] as) := by
  have start : s.readCell (plus16 (s.readReg 0#3) (0 : Nat)) = s.readCell (s.readReg 0#3) := by
    rw [plus16_natCast]
    simp
  by_cases hz : s.readCell (s.readReg 0#3) = 0#16
  · exact stringService_cut (k := 0) (ws := []) hemit ir hcan has (by simp) (by simp) (.inr ⟨rfl, start.trans hz⟩)
  · have hpos : 0 < (emit (s.readCell (s.readReg 0#3))).length := List.length_pos_of_ne_nil (hemit _)
    refine stringService_cut (k := 0) (ws := [s.readCell (s.readReg 0#3)]) hemit ir hcan has (by simpa using hz)
      (fun j hj => ?_) (.inl (by simpa using hpos))
    obtain rfl : j = 0 := by simpa using hj
    exact start

/-! ## The rules -/

/-- The answer of a source that need not be waited for. -/
theorem ready_of_not_mustWait {i : Instr} {s : State} (reads : readsInput i = true) (hwait : ¬mustWait i s)
    (rest : InputSource) : s.input.answer ≠ .notYet rest :=
  fun h => hwait ⟨reads, rest, h⟩

/-- Settles O39: each of the five services is cut before its first event. -/
theorem outputFailureAtOnceIsFatal : Obligations.OutputFailureAtOnceIsFatal := by
  intro ign s as i hcan has hwait hi
  have cut : exec i s = .next (s.cutOutput (encode i) [] as) := by
    simp only [List.mem_cons, List.not_mem_nil, or_false] at hi
    rcases hi with rfl | rfl | rfl | rfl | rfl
    · simp only [exec, execOut, State.outByte, State.sinkTake_of_fail _ hcan has]
      simp [State.cutOutput, State.withOutput, State.withSinkAnswers]
    · simp only [exec, execHalt, State.outFlush, State.sinkTake_of_fail _ hcan has]
      simp [State.cutOutput, State.withOutput, State.withSinkAnswers]
    · rw [exec_trapIn_of_ready ign (ready_of_not_mustWait rfl hwait),
        promptThenTake_cut (k := 0) _ _ hcan has (by simp)]
      rfl
    · exact (exec_trapPuts ign s).trans (stringService_cut_at_once putsBytes_ne_nil _ hcan has)
    · exact (exec_trapPutsp ign s).trans (stringService_cut_at_once putspBytes_ne_nil _ hcan has)
  exact ⟨_, cut, s.cutOutput_serviceKept _ _ _, rfl, List.append_nil s.output, rfl, s.run_cutOutput _ _ _⟩

/-- Settles O40: both services by `stringService_cut`, with their bytes as events. -/
theorem outputFailureInsideAString : Obligations.OutputFailureInsideAString := by
  intro ign s k as ws hcan has hne hws i bytes hi hk
  have cut : exec i s = .next (s.cutOutput (encode i) (bytes.take k) as) := by
    rcases hi with ⟨rfl, hbytes⟩ | ⟨rfl, hbytes⟩
    · rw [← putsBytes_events] at hbytes
      subst hbytes
      rw [List.length_map] at hk
      exact (exec_trapPuts ign s).trans (stringService_cut putsBytes_ne_nil _ hcan has hne hws hk)
    · rw [← putspBytes_events] at hbytes
      subst hbytes
      rw [List.length_map] at hk
      exact (exec_trapPutsp ign s).trans (stringService_cut putspBytes_ne_nil _ hcan has hne hws hk)
  exact ⟨_, cut, s.cutOutput_serviceKept _ _ _, rfl, rfl, s.run_cutOutput _ _ _, rfl⟩

/-- Settles O41: the byte is what the sink accepted. -/
theorem outputFailureAtTheFlushOfOut : Obligations.OutputFailureAtTheFlushOfOut := fun ign s _ hcan has =>
  ⟨_, exec_trapOut_cut_at_flush ign hcan has, s.cutOutput_serviceKept _ _ _, rfl, rfl, s.run_cutOutput _ _ _, rfl⟩

/-- Settles O42: the prompt is cut before the answer is taken, so the answer does not matter. -/
theorem outputFailureInThePrompt : Obligations.OutputFailureInThePrompt := by
  intro ign s k as hcan has hk hwait
  have cut := exec_trapIn_of_ready ign (ready_of_not_mustWait rfl hwait)
  rw [promptThenTake_cut _ _ hcan has hk] at cut
  exact ⟨_, cut, s.cutOutput_serviceKept _ _ _, rfl, rfl, s.run_cutOutput _ _ _, rfl⟩

end Sys2Proof.Machine
end

section
/-! Two machines side by side that differ in their sinks alone (10_state.md sections 7 and 8): if one operation on the
sinks keeps a relation between them, so does every cycle.  The two uses are a sink with other events in it and a sink that may
fail and does not. -/

namespace Sys2Proof.Machine

/-! ## Related states and outcomes -/

/-- The machine of `u` at the sink of `v`. -/
def State.withSinkOf (u v : State) : State := { u with output := v.output, sinkAnswers := v.sinkAnswers, io := v.io }

/-- Both are accepted or both fail, with related states. -/
inductive SinkResult.Rel (R : State → State → Prop) : SinkResult → SinkResult → Prop where
  | accepted {u v : State} (h : R u v) : Rel R (.accepted u) (.accepted v)
  | failed {u v : State} (h : R u v) : Rel R (.failed u) (.failed v)

/-- Both scans end alike, with related states. -/
inductive ScanResult.Rel (R : State → State → Prop) : ScanResult → ScanResult → Prop where
  | ended {u v : State} (h : R u v) : Rel R (.ended u) (.ended v)
  | failed {u v : State} (h : R u v) : Rel R (.failed u) (.failed v)
  | endless : Rel R .endless .endless

/-- Both have related next states, or both stop alike. -/
inductive NextRel (R : State → State → Prop) :
    Host.Outcome State Fault Refusal → Host.Outcome State Fault Refusal → Prop where
  | next {u v : State} (h : R u v) : NextRel R (.next u) (.next v)
  | fault (r : Fault) : NextRel R (.fault r) (.fault r)
  | refused (r : Refusal) : NextRel R (.refused r) (.refused r)

/-- A relation between states with different sinks, which one operation on the sinks keeps and nothing else can see. -/
structure SinkSim (R : State → State → Prop) : Prop where
  same : ∀ {u v : State}, R u v → v = u.withSinkOf v
  prompt : ∀ {u v : State}, R u v → v.io.inPrompt = u.io.inPrompt
  take : ∀ {u v : State}, R u v → ∀ e, SinkResult.Rel R (u.sinkTake e) (v.sinkTake e)
  update : ∀ {u v : State}, R u v → ∀ w, w.withSinkOf u = w → R w (w.withSinkOf v)

section
variable {R : State → State → Prop} {u v : State} (sim : SinkSim R) (h : R u v)

/-! ## What both machines read alike -/

include sim h in
theorem SinkSim.readReg (r : RegIdx) : v.readReg r = u.readReg r := by
  rw [sim.same h]
  rfl

include sim h in
theorem SinkSim.readCell (a : Word) : v.readCell a = u.readCell a := by
  rw [sim.same h]
  rfl

include sim h in
theorem SinkSim.inByte : v.inByte = u.inByte := by
  rw [sim.same h]
  rfl

include sim h in
/-- An update that does not look at the sink keeps the relation. -/
theorem SinkSim.map {g : State → State} (hg : ∀ s w, g (s.withSinkOf w) = (g s).withSinkOf w) : R (g u) (g v) := by
  have moved : g v = (g u).withSinkOf v := (congrArg g (sim.same h)).trans (hg u v)
  rw [moved]
  exact sim.update h _ (hg u u).symm

/-! ## The operations of the services -/

include sim h in
theorem SinkSim.failOutput (ir : Word) : R (u.failOutput ir) (v.failOutput ir) :=
  sim.map h (g := (·.failOutput ir)) fun _ _ => rfl

include sim h in
theorem SinkSim.takeInput (ir : Word) (answer : InputAnswer) : R (u.takeInput ir answer) (v.takeInput ir answer) :=
  sim.map h (g := (·.takeInput ir answer)) fun _ _ => by cases answer <;> rfl

include sim h in
theorem SinkSim.flushOrFail (ir : Word) : R (u.flushOrFail ir) (v.flushOrFail ir) := by
  have flushed := sim.take h .flush
  simp only [State.flushOrFail, State.outFlush]
  generalize u.sinkTake .flush = x, v.sinkTake .flush = y at flushed
  cases flushed with
  | accepted h' => exact h'
  | failed h' => exact sim.failOutput h' ir

include sim in
theorem SinkSim.outBytes (bs : List Byte) (h : R u v) : SinkResult.Rel R (u.outBytes bs) (v.outBytes bs) := by
  induction bs generalizing u v with
  | nil => exact .accepted h
  | cons b bs ih =>
    have written := sim.take h (.byte b)
    simp only [State.outBytes, State.outByte]
    generalize u.sinkTake (.byte b) = x, v.sinkTake (.byte b) = y at written
    cases written with
    | accepted h' => exact ih h'
    | failed h' => exact .failed h'

include sim h in
theorem SinkSim.promptThenTake (ir : Word) (answer : InputAnswer) :
    R (promptThenTake ir answer u) (promptThenTake ir answer v) := by
  have prompted := sim.outBytes u.io.inPrompt h
  simp only [Machine.promptThenTake, sim.prompt h]
  generalize u.outBytes u.io.inPrompt = x, v.outBytes u.io.inPrompt = y at prompted
  cases prompted with
  | failed h' => exact sim.failOutput h' ir
  | @accepted u' v' h' =>
    have flushed := sim.take h' .flush
    simp only [State.outFlush]
    generalize u'.sinkTake .flush = x, v'.sinkTake .flush = y at flushed
    cases flushed with
    | failed h'' => exact sim.failOutput h'' ir
    | accepted h'' => exact sim.takeInput h'' ir answer

include sim in
theorem SinkSim.scanString (emit : Word → List Byte) (fuel : Nat) (p : Word) (h : R u v) :
    ScanResult.Rel R (scanString emit fuel p u) (scanString emit fuel p v) := by
  induction fuel generalizing p u v with
  | zero => exact .endless
  | succ fuel ih =>
    have written := sim.outBytes (emit (u.readCell p)) h
    simp only [Machine.scanString, sim.readCell h]
    split
    · exact .ended h
    · generalize u.outBytes (emit (u.readCell p)) = x, v.outBytes (emit (u.readCell p)) = y at written
      cases written with
      | accepted h' => exact ih _ h'
      | failed h' => exact .failed h'

include sim h in
theorem SinkSim.stringService (emit : Word → List Byte) (ir : Word) (hfuel : scanFuel v = scanFuel u) :
    NextRel R (stringService emit ir u) (stringService emit ir v) := by
  have scanned := sim.scanString emit (scanFuel u) (u.readReg regR0) h
  simp only [Machine.stringService, hfuel, sim.readReg h]
  generalize Machine.scanString emit (scanFuel u) (u.readReg regR0) u = x,
    Machine.scanString emit (scanFuel u) (u.readReg regR0) v = y at scanned
  cases scanned with
  | ended h' => exact .next (sim.flushOrFail h' ir)
  | failed h' => exact .next (sim.failOutput h' ir)
  | endless => exact .fault _

/-! ## The instructions -/

/-- No instruction but a trap looks at the sink. -/
theorem exec_withSinkOf {i : Instr} (htrap : i.opcode ≠ .trap) (s w : State) :
    exec i (s.withSinkOf w) = mapNext (·.withSinkOf w) (exec i s) := by
  cases i
  case br n z p off =>
    have hcond : (s.withSinkOf w).cond = s.cond := rfl
    simp only [exec, execBr, hcond]
    split <;> rfl
  case trapGetc | trapOut | trapPuts | trapIn | trapPutsp | trapHalt | trapUnknown => exact absurd rfl htrap
  case addReg | addImm | andReg | andImm | not | ld | ldi | ldr | lea | st | sti | str | jmp | jsr | jsrr
      | unimplemented1000 | unimplemented1101 => rfl

include sim h in
theorem SinkSim.exec_of_not_trap {i : Instr} (htrap : i.opcode ≠ .trap) : NextRel R (exec i u) (exec i v) := by
  have moved : exec i v = mapNext (·.withSinkOf v) (exec i u) :=
    (congrArg (exec i) (sim.same h)).trans (exec_withSinkOf htrap u v)
  have fixed : exec i u = mapNext (·.withSinkOf u) (exec i u) := exec_withSinkOf htrap u u
  rw [moved]
  cases hu : exec i u with
  | next t =>
    rw [hu] at fixed
    injection fixed with fixed
    exact .next (sim.update h t fixed.symm)
  | fault r => exact .fault r
  | refused r => exact .refused r

include sim h in
theorem SinkSim.exec_of_trap {i : Instr} (htrap : i.opcode = .trap) (hfuel : scanFuel v = scanFuel u) :
    NextRel R (exec i u) (exec i v) := by
  cases i <;> cases htrap
  case trapGetc g =>
    simp only [Machine.exec, execGetc, sim.inByte h]
    exact .next (sim.takeInput h _ _)
  case trapOut g =>
    have written := sim.take h (.byte (lowByte (u.readReg regR0)))
    simp only [Machine.exec, execOut, State.outByte, sim.readReg h]
    generalize u.sinkTake (.byte (lowByte (u.readReg regR0))) = x,
      v.sinkTake (.byte (lowByte (u.readReg regR0))) = y at written
    cases written with
    | accepted h' => exact .next (sim.flushOrFail h' _)
    | failed h' => exact .next (sim.failOutput h' _)
  case trapPuts g => exact sim.stringService h _ _ hfuel
  case trapPutsp g => exact sim.stringService h _ _ hfuel
  case trapIn g =>
    simp only [Machine.exec, execIn, sim.inByte h]
    cases u.inByte with
    | notYet rest => exact .next (sim.map h (g := (·.hold rest)) fun _ _ => rfl)
    | byte b rest => exact .next (sim.promptThenTake h _ _)
    | failed rest => exact .next (sim.promptThenTake h _ _)
  case trapHalt g =>
    have flushed := sim.take h .flush
    simp only [Machine.exec, execHalt, State.outFlush]
    generalize u.sinkTake .flush = x, v.sinkTake .flush = y at flushed
    cases flushed with
    | accepted h' => exact .next (sim.map h' (g := (·.withRun .halted)) fun _ _ => rfl)
    | failed h' => exact .next (sim.failOutput h' _)
  case trapUnknown g x =>
    exact .next (sim.map h
      (g := fun s => s.raiseFatal (.unknownTrapVector (s.diagnostic (encode (.trapUnknown g x))))) fun _ _ => rfl)

include sim h in
theorem SinkSim.exec (i : Instr) (hfuel : scanFuel v = scanFuel u) : NextRel R (exec i u) (exec i v) := by
  by_cases htrap : i.opcode = .trap
  · exact sim.exec_of_trap h htrap hfuel
  · exact sim.exec_of_not_trap h htrap

include sim h in
theorem SinkSim.step (hfuel : scanFuel v = scanFuel u) : NextRel R (step u) (step v) := by
  have hfetch : v.fetchWord = u.fetchWord := by
    rw [sim.same h]
    rfl
  have hrun : v.run = u.run := by
    rw [sim.same h]
    rfl
  by_cases hr : u.run = .running
  · rw [step_of_running hr, step_of_running (hrun.trans hr), hfetch]
    exact sim.exec (sim.map h (g := State.advancePc) fun _ _ => rfl) _ hfuel
  · rw [step_of_stopped hr, step_of_stopped (hrun ▸ hr)]
    exact .next h

end

/-! ## Other events in the sink -/

/-- `v` is `u` with the events `out` before its own. -/
def OutputAfter (out : List SinkEvent) (u v : State) : Prop := v = u.withOutput (out ++ u.output)

theorem outputAfter_sinkSim (out : List SinkEvent) : SinkSim (OutputAfter out) where
  same := by
    rintro u v rfl
    rfl
  prompt := by
    rintro u v rfl
    rfl
  take := by
    rintro u v rfl e
    cases hcan : u.io.sinkCanFail with
    | false =>
      rw [State.sinkTake_of_cannot_fail e hcan,
        State.sinkTake_of_cannot_fail (s := u.withOutput (out ++ u.output)) e hcan]
      exact .accepted (by simp [OutputAfter, State.withOutput])
    | true =>
      simp only [State.sinkTake, State.io_withOutput, hcan, if_true, State.sinkAnswers_withOutput]
      rcases u.sinkAnswers with _ | ⟨_ | _, rest⟩
      · exact .accepted (by simp [OutputAfter, State.withOutput])
      · exact .accepted (by simp [OutputAfter, State.withOutput, State.withSinkAnswers])
      · exact .failed rfl
  update := by
    rintro u v rfl w hw
    rw [← hw]
    rfl

/-- Settles O52: the step from an empty output tells which events are appended, whatever stood there before. -/
theorem outputIsAppendOnlyAndNeverRead : Obligations.OutputIsAppendOnlyAndNeverRead := by
  intro s t h
  have own : NextRel (OutputAfter s.output) (step (s.withOutput [])) (step s) :=
    (outputAfter_sinkSim s.output).step (by simp [OutputAfter, State.withOutput]) rfl
  rw [h] at own
  generalize hempty : step (s.withOutput []) = r at own
  cases own with
  | @next t₀ _ ht =>
    obtain rfl : t = t₀.withOutput (s.output ++ t₀.output) := ht
    refine ⟨t₀.output, rfl, fun out => ?_⟩
    have other : NextRel (OutputAfter out) (step (s.withOutput [])) (step (s.withOutput out)) :=
      (outputAfter_sinkSim out).step (by simp [OutputAfter, State.withOutput]) rfl
    rw [hempty] at other
    generalize step (s.withOutput out) = r at other
    cases other with
    | next ht' => exact congrArg _ ht'

/-! ## A sink that may fail and accepts everything -/

/-- `v` is `u`, whose sink cannot fail, at a sink with the parameters `io` that has only accepting answers left. -/
def AcceptsAsSure (io : IoParams) (u v : State) : Prop :=
  u.io = ⟨io.inPrompt, false⟩ ∧ ∃ as, (∀ a ∈ as, a = SinkAnswer.ok) ∧ v = { u with io := io, sinkAnswers := as }

theorem acceptsAsSure_sinkSim (io : IoParams) : SinkSim (AcceptsAsSure io) where
  same := by
    rintro u v ⟨-, as, -, rfl⟩
    rfl
  prompt := by
    rintro u v ⟨hio, as, -, rfl⟩
    rw [hio]
  take := by
    rintro u v ⟨hio, as, has, rfl⟩ e
    rw [State.sinkTake_of_cannot_fail (s := u) e (by rw [hio])]
    cases hcan : io.sinkCanFail with
    | false =>
      rw [State.sinkTake_of_cannot_fail e hcan]
      exact .accepted ⟨hio, as, has, rfl⟩
    | true =>
      cases as with
      | nil =>
        simp only [State.sinkTake, hcan, if_true]
        exact .accepted ⟨hio, [], has, rfl⟩
      | cons a as =>
        obtain rfl : a = .ok := has a List.mem_cons_self
        rw [State.sinkTake_of_ok (as := as) e hcan rfl]
        exact .accepted ⟨hio, as, fun b hb => has b (List.mem_cons_of_mem _ hb), rfl⟩
  update := by
    rintro u v ⟨hio, as, has, rfl⟩ w hw
    rw [← hw]
    exact ⟨hio, as, has, rfl⟩

/-- Settles O43: the two machines run side by side by `SinkSim.exec`. -/
theorem acceptingSinkIsAsOneThatCannotFail : Obligations.AcceptingSinkIsAsOneThatCannotFail := by
  intro i s t has h
  have related : NextRel (AcceptsAsSure s.io) (exec i { s with io := ⟨s.io.inPrompt, false⟩ }) (exec i s) :=
    (acceptsAsSure_sinkSim s.io).exec ⟨rfl, s.sinkAnswers, has, rfl⟩ i rfl
  rw [h] at related
  generalize exec i s = r at related ⊢
  cases related with
  | next ht =>
    obtain ⟨-, as, has', rfl⟩ := ht
    exact ⟨as, has', rfl⟩

end Sys2Proof.Machine
end

section
/-! The host's `step()` and `run()` (40_cycle.md section 2): terminal states, the wait of a GETC or IN, and the
iteration. -/

namespace Sys2Proof.Machine

/-! ## What stops the machine -/

/-- Every instruction has a next state, but for a string service in a memory without a zero word. -/
theorem exec_next_or_endless (i : Instr) (s : State) :
    (∃ t, exec i s = .next t) ∨
      (exec i s = .fault .endlessString ∧ scansString i = true ∧ ∀ a, s.readCell a ≠ 0#16) := by
  have service : ∀ emit ir, (∃ t, stringService emit ir s = .next t) ∨
      (stringService emit ir s = .fault .endlessString ∧ ∀ a, s.readCell a ≠ 0#16) := fun emit ir => by
    rcases stringService_cases emit ir s with ⟨t, h, -⟩ | ⟨-, t, h, -⟩ | h
    · exact .inl ⟨t, h⟩
    · exact .inl ⟨_, h⟩
    · exact .inr h
  cases i
  case trapPuts g => exact (service putsBytes _).imp id fun ⟨h, hne⟩ => ⟨h, rfl, hne⟩
  case trapPutsp g => exact (service putspBytes _).imp id fun ⟨h, hne⟩ => ⟨h, rfl, hne⟩
  case trapOut g =>
    left
    simp only [exec, execOut]
    cases s.outByte (lowByte (s.readReg regR0)) <;> exact ⟨_, rfl⟩
  case trapIn g =>
    left
    simp only [exec, execIn]
    cases s.inByte <;> exact ⟨_, rfl⟩
  case trapHalt g =>
    left
    simp only [exec, execHalt]
    cases s.outFlush <;> exact ⟨_, rfl⟩
  case br | addReg | addImm | andReg | andImm | not | ld | ldi | ldr | lea | st | sti | str | jmp | jsr | jsrr
      | unimplemented1000 | unimplemented1101 | trapGetc | trapUnknown => exact .inl ⟨_, rfl⟩

/-- Settles O48: a running step is an execution, and a stopped machine steps to itself. -/
theorem onlyAnEndlessStringStops : Obligations.OnlyAnEndlessStringStops := by
  intro s
  by_cases hrun : s.run = .running
  · rw [step_of_running hrun]
    rcases exec_next_or_endless (decodeWord s.fetchWord) s.advancePc with ⟨t, h⟩ | ⟨h, scans, hne⟩
    · rw [h]
      exact ⟨fun _ e => (nomatch e), fun _ e => (nomatch e)⟩
    · rw [h]
      refine ⟨fun _ e => (nomatch e), fun r e => ?_⟩
      injection e with e
      exact ⟨e.symm, hrun, scans, hne⟩
  · rw [step_of_stopped hrun]
    exact ⟨fun _ e => (nomatch e), fun _ e => (nomatch e)⟩

/-! ## `run()` -/

theorem runCycles_of_stopped {s : State} (h : s.run ≠ .running) (fuel : Nat) : runCycles fuel s = .returned s := by
  cases fuel <;> simp only [runCycles, h, if_false]

theorem runCycles_zero_of_running {s : State} (h : s.run = .running) : runCycles 0 s = .unfinished s := by
  simp only [runCycles, h, if_true]

theorem runCycles_succ_of_next {s t : State} (hr : s.run = .running) (h : step s = .next t) (fuel : Nat) :
    runCycles (fuel + 1) s = runCycles fuel t := by
  simp only [runCycles, hr, if_true, h]

theorem coreRun_succ_of_next {s t : State} (h : step s = .next t) (n : Nat) :
    Host.Core.run Sys2Proof.core (n + 1) s = Host.Core.run Sys2Proof.core n t := by
  have hstep : Sys2Proof.core.step s = .next t := h
  simp only [Host.Core.run, hstep]

theorem coreRun_of_stopped {s : State} (h : s.run ≠ .running) (n : Nat) :
    Host.Core.run Sys2Proof.core n s = .next s := by
  induction n with
  | zero => rfl
  | succ n ih => exact (coreRun_succ_of_next (step_of_stopped h) n).trans ih

/-- A step that both iterations take has a next state. -/
theorem step_next_of_returned {fuel : Nat} {s t : State} (hr : s.run = .running)
    (h : runCycles (fuel + 1) s = .returned t) : ∃ u, step s = .next u := by
  simp only [runCycles, hr, if_true] at h
  cases hs : step s with
  | next u => exact ⟨u, rfl⟩
  | fault r => simp [hs] at h
  | refused r => simp [hs] at h

theorem step_next_of_coreRun {n : Nat} {s t : State} (h : Host.Core.run Sys2Proof.core (n + 1) s = .next t) :
    ∃ u, step s = .next u := by
  cases hs : step s with
  | next u => exact ⟨u, rfl⟩
  | fault r =>
    have hstep : Sys2Proof.core.step s = .fault r := hs
    simp [Host.Core.run, hstep] at h
  | refused r =>
    have hstep : Sys2Proof.core.step s = .refused r := hs
    simp [Host.Core.run, hstep] at h

theorem coreRun_of_returned {fuel : Nat} {s t : State} (h : runCycles fuel s = .returned t) :
    t.run ≠ .running ∧ Host.Core.run Sys2Proof.core fuel s = .next t ∧
      ∀ more, runCycles (fuel + more) s = .returned t := by
  induction fuel generalizing s with
  | zero =>
    by_cases hr : s.run = .running
    · rw [runCycles_zero_of_running hr] at h
      cases h
    · rw [runCycles_of_stopped hr] at h
      cases h
      exact ⟨hr, rfl, fun more => runCycles_of_stopped hr _⟩
  | succ fuel ih =>
    by_cases hr : s.run = .running
    · obtain ⟨u, hu⟩ := step_next_of_returned hr h
      rw [runCycles_succ_of_next hr hu] at h
      obtain ⟨stopped, reached, larger⟩ := ih h
      refine ⟨stopped, (coreRun_succ_of_next hu fuel).trans reached, fun more => ?_⟩
      rw [Nat.add_right_comm, runCycles_succ_of_next hr hu, larger more]
    · rw [runCycles_of_stopped hr] at h
      cases h
      exact ⟨hr, coreRun_of_stopped hr _, fun more => runCycles_of_stopped hr _⟩

theorem returned_of_coreRun {fuel : Nat} {s t : State} (h : Host.Core.run Sys2Proof.core fuel s = .next t)
    (stopped : t.run ≠ .running) : runCycles fuel s = .returned t := by
  induction fuel generalizing s with
  | zero =>
    cases h
    exact runCycles_of_stopped stopped 0
  | succ fuel ih =>
    by_cases hr : s.run = .running
    · obtain ⟨u, hu⟩ := step_next_of_coreRun h
      rw [coreRun_succ_of_next hu] at h
      rw [runCycles_succ_of_next hr hu, ih h]
    · rw [coreRun_of_stopped hr] at h
      cases h
      exact runCycles_of_stopped hr _

/-- Settles O53: one induction on the bound for each direction. -/
theorem runIsIteratedStep : Obligations.RunIsIteratedStep := fun _ _ _ => ⟨coreRun_of_returned, returned_of_coreRun⟩

/-! ## The host's `step()` -/

theorem State.hostStep_of_next {s u t : State} (hu : s.awaitInput = some u) (h : step u = .next t) :
    s.hostStep = some (t, t.run) := by
  simp only [State.hostStep, hu, h]

/-- `step()` returns exactly where the wait ends and the cycle has a next state. -/
theorem State.hostStep_eq_some_iff {s t : State} {o : Run} :
    s.hostStep = some (t, o) ↔ ∃ u, s.awaitInput = some u ∧ step u = .next t ∧ o = t.run := by
  constructor
  · intro h
    simp only [State.hostStep] at h
    cases hu : s.awaitInput with
    | none => simp [hu] at h
    | some u =>
      cases hs : step u with
      | next t' =>
        simp only [hu, hs, Option.some.injEq, Prod.mk.injEq] at h
        obtain ⟨rfl, rfl⟩ := h
        exact ⟨u, rfl, hs, rfl⟩
      | fault r => simp [hu, hs] at h
      | refused r => simp [hu, hs] at h
  · rintro ⟨u, hu, hs, rfl⟩
    exact State.hostStep_of_next hu hs

theorem State.hostStep_eq_none_iff {s : State} :
    s.hostStep = none ↔ ∀ u t, s.awaitInput = some u → step u ≠ .next t := by
  rw [Option.eq_none_iff_forall_ne_some]
  constructor
  · exact fun h u t hu hs => h _ (State.hostStep_of_next hu hs)
  · rintro h ⟨t, o⟩ he
    obtain ⟨u, hu, hs, -⟩ := State.hostStep_eq_some_iff.mp he
    exact h u t hu hs

/-- Settles O46: a machine that does not run does not wait, and steps to itself. -/
theorem terminalStatesAreSticky : Obligations.TerminalStatesAreSticky := by
  intro s fuel hrun
  have await : s.awaitInput = some s := State.awaitInput_of_not_waiting fun h => hrun h.1
  exact ⟨step_of_stopped hrun, State.hostStep_of_next await (step_of_stopped hrun), runCycles_of_stopped hrun fuel⟩

/-! ## The wait of a GETC or IN -/

/-- Settles O32: the held step undoes the fetch, by `hold_advancePc`. -/
theorem blockedReadHoldsTheCore : Obligations.BlockedReadHoldsTheCore := by
  intro s rest hrun reads ha
  rw [step_of_running hrun, exec_of_notYet reads (s := s.advancePc) ha, State.hold_advancePc]

/-- The next cycle is a GETC or IN. -/
def State.Reading (s : State) : Prop := s.run = .running ∧ readsInput (decodeWord s.fetchWord) = true

/-- Moves of the source do not change what the next cycle is. -/
theorem State.Reading.withInput {s : State} (h : s.Reading) (x : InputSource) : (s.withInput x).Reading := h

theorem State.Reading.awaitInput {s : State} (h : s.Reading) : s.awaitInput = s.input.await.map s.withInput := if_pos h

theorem State.Reading.step_of_notYet {s : State} (h : s.Reading) {rest : InputSource}
    (ha : s.input.answer = .notYet rest) : step s = .next (s.withInput rest) := by
  obtain ⟨hrun, reads⟩ := h
  exact blockedReadHoldsTheCore s rest hrun reads ha

theorem InputSource.notYet_of_await_none {x : InputSource} (h : x.await = none) : ∃ rest, x.answer = .notYet rest := by
  by_contra hne
  rw [InputSource.await_of_ready (fun rest ha => hne ⟨rest, ha⟩)] at h
  cases h

/-- A source that never can answer holds the core in every step. -/
theorem State.Reading.mustWait_of_await_none {n : Nat} {s t : State} (h : s.Reading) (ha : s.input.await = none)
    (hn : Host.Core.run Sys2Proof.core n s = .next t) : mustWait (decodeWord t.fetchWord) t := by
  obtain ⟨rest, hrest⟩ := InputSource.notYet_of_await_none ha
  induction n generalizing s rest with
  | zero =>
    cases hn
    exact ⟨h.2, rest, hrest⟩
  | succ n ih =>
    rw [coreRun_succ_of_next (h.step_of_notYet hrest)] at hn
    rw [InputSource.await_of_notYet hrest] at ha
    obtain ⟨rest', hrest'⟩ := InputSource.notYet_of_await_none ha
    exact ih (h.withInput rest) ha hn rest' hrest'

/-- A source without end has made its moves after as many steps as its delay has left. -/
theorem State.Reading.run_to_endless_byte {s : State} (h : s.Reading) {k w d : Nat} (hd : endlessDelay k - w = d)
    (hs : s.input = .endless k w) :
    ∃ n, Host.Core.run Sys2Proof.core n s = .next (s.withInput (.endless k (max w (endlessDelay k)))) := by
  induction d generalizing s w with
  | zero =>
    rw [Nat.max_eq_left (Nat.le_of_sub_eq_zero hd), ← hs]
    exact ⟨0, rfl⟩
  | succ d ih =>
    have waits : s.input.answer = .notYet (.endless k (w + 1)) := by
      rw [hs, InputSource.answer, if_pos (by omega)]
    obtain ⟨n, hn⟩ := ih (h.withInput (.endless k (w + 1))) (w := w + 1) (by omega) rfl
    have hmax : max (w + 1) (endlessDelay k) = max w (endlessDelay k) := by omega
    rw [hmax] at hn
    exact ⟨n + 1, (coreRun_succ_of_next (h.step_of_notYet waits) n).trans hn⟩

/-- What is waited for is reached by held steps. -/
theorem State.Reading.run_to_ready {x y : InputSource} (hx : x.await = some y) {s : State} (h : s.Reading)
    (hs : s.input = x) : ∃ n, Host.Core.run Sys2Proof.core n s = .next (s.withInput y) := by
  induction x generalizing s with
  | byte b rest =>
    cases hx
    rw [← hs]
    exact ⟨0, rfl⟩
  | error rest =>
    cases hx
    rw [← hs]
    exact ⟨0, rfl⟩
  | ended =>
    cases hx
    rw [← hs]
    exact ⟨0, rfl⟩
  | silent => cases hx
  | late rest ih =>
    obtain ⟨n, hn⟩ := ih hx (h.withInput rest) rfl
    exact ⟨n + 1, (coreRun_succ_of_next (h.step_of_notYet (by rw [hs]; rfl)) n).trans hn⟩
  | endless k w =>
    cases hx
    exact h.run_to_endless_byte rfl hs

theorem scansString_of_readsInput {i : Instr} (h : readsInput i = true) : scansString i = false := by
  cases i <;> cases h <;> rfl

/-- A GETC or IN always has a next state. -/
theorem State.Reading.step_next {s : State} (h : s.Reading) : ∃ t, step s = .next t := by
  obtain ⟨hrun, reads⟩ := h
  rw [step_of_running hrun]
  rcases exec_next_or_endless (decodeWord s.fetchWord) s.advancePc with hnext | ⟨-, scans, -⟩
  · exact hnext
  · rw [scansString_of_readsInput reads] at scans
    cases scans

theorem State.Reading.hostStep_eq_none_iff {s : State} (h : s.Reading) : s.hostStep = none ↔ s.input.await = none := by
  rw [State.hostStep_eq_none_iff, h.awaitInput]
  constructor
  · intro hnone
    cases hy : s.input.await with
    | none => rfl
    | some y =>
      obtain ⟨t, ht⟩ := (h.withInput y).step_next
      exact absurd ht (hnone (s.withInput y) t (by rw [hy]; rfl))
  · intro hy u t hu
    rw [hy] at hu
    cases hu

/-- When the host's `step()` of a GETC or IN returns, the PC has advanced. -/
theorem State.Reading.pc_of_hostStep {s t : State} {o : Run} (h : s.Reading) (ht : s.hostStep = some (t, o)) :
    o = t.run ∧ t.pc = plus16 s.pc 1 := by
  obtain ⟨u, hu, hs, rfl⟩ := State.hostStep_eq_some_iff.mp ht
  rw [h.awaitInput] at hu
  obtain ⟨y, hy, rfl⟩ := Option.map_eq_some_iff.mp hu
  obtain ⟨hrun, reads⟩ := h.withInput y
  rw [step_of_running hrun] at hs
  have hwait : ¬mustWait (decodeWord (s.withInput y).fetchWord) (s.withInput y).advancePc :=
    fun ⟨_, rest, ha⟩ => InputSource.await_ready hy rest ha
  obtain ⟨-, control⟩ := no_store_no_transfer (.inl (opcode_of_readsInput reads)) s
  rw [plus16_one]
  exact ⟨rfl, (exec_execFrame hwait hs).pc control⟩

/-- Settles O47: without a wait `step()` is the one step; with one, the source's moves are passed over, and it never
returns exactly where the source can never answer. -/
theorem hostStepPerformsOneCycle : Obligations.HostStepPerformsOneCycle := by
  refine ⟨fun s hs => ?_, fun s hrun reads => ?_⟩
  · have await : s.awaitInput = some s := State.awaitInput_of_not_waiting hs
    refine ⟨fun t o => ?_, ?_⟩
    · rw [State.hostStep_eq_some_iff, await]
      exact ⟨fun ⟨_, hu, h⟩ => Option.some.inj hu ▸ h, fun h => ⟨s, rfl, h⟩⟩
    · rw [State.hostStep_eq_none_iff, await]
      exact ⟨fun h t => h s t rfl, fun h _ t hu => Option.some.inj hu ▸ h t⟩
  · have reading : s.Reading := ⟨hrun, reads⟩
    refine ⟨fun rest ha => ?_, ?_, fun t o => reading.pc_of_hostStep⟩
    · simp only [State.hostStep, State.awaitInput_of_notYet hrun reads ha]
    · rw [reading.hostStep_eq_none_iff]
      refine ⟨fun hy n t hn => reading.mustWait_of_await_none hy hn, fun hwaits => ?_⟩
      cases hy : s.input.await with
      | none => rfl
      | some y =>
        obtain ⟨n, hn⟩ := State.Reading.run_to_ready hy reading rfl
        obtain ⟨-, rest, ha⟩ := hwaits n _ hn
        exact absurd ha (InputSource.await_ready hy rest)

/-! ## Sources without end -/

/-- A GETC or IN whose source can answer takes that answer, or its sink fails before. -/
theorem exec_reader_cases {i : Instr} {s t : State} (reads : readsInput i = true)
    (ready : ∀ rest, s.input.answer ≠ .notYet rest) (h : exec i s = .next t) :
    ∃ u, SinkOnly s u ∧ (t = u.takeInput (encode i) s.input.answer ∨ t = u.failOutput (encode i)) := by
  cases i <;> cases reads
  case trapGetc g =>
    cases h
    exact ⟨s, .refl s, .inl rfl⟩
  case trapIn g =>
    rw [exec_trapIn_of_ready g ready] at h
    injection h with h
    subst h
    rcases promptThenTake_cases (encode (.trapIn g)) s.input.answer s with ⟨u, kept, -, e⟩ | ⟨-, u, kept, -, e⟩
    · exact ⟨u, kept, .inl e⟩
    · exact ⟨u, kept, .inr e⟩

/-- A GETC or IN with a byte at hand and a sink that never fails (rules R212 and R215). -/
theorem exec_reader_byte {i : Instr} {s : State} {b : Byte} {rest : InputSource} (reads : readsInput i = true)
    (hsink : s.io.sinkCanFail = false) (ha : s.input.answer = .byte b rest) :
    ∃ t, exec i s = .next t ∧ (t.readReg 0#3).toNat = b.toNat ∧ t.input = rest ∧ t.run = s.run := by
  cases i <;> cases reads
  case trapGetc g =>
    obtain ⟨t, h, value, input, -, -, run, -⟩ := getcReadsOneByte g b rest s ha
    exact ⟨t, h, value, input, run⟩
  case trapIn g =>
    obtain ⟨t, h, value, input, -, -, run, -⟩ := inPromptsThenReadsOneByte g b rest s ha hsink
    exact ⟨t, h, value, input, run⟩

theorem InputSource.answer_endless (k w : Nat) :
    (InputSource.endless k w).answer = .notYet (.endless k (w + 1)) ∨
      (InputSource.endless k w).answer = .byte (endlessByte k) (.endless (k + 1) 0) := by
  rw [InputSource.answer]
  split
  · exact .inl rfl
  · exact .inr rfl

/-- The wait for a source without end comes to its next byte. -/
theorem State.Reading.await_endless {s : State} {k w : Nat} (h : s.Reading) (hs : s.input = .endless k w) :
    ∃ x, s.awaitInput = some (s.withInput x) ∧ x.answer = .byte (endlessByte k) (.endless (k + 1) 0) := by
  refine ⟨.endless k (max w (endlessDelay k)), ?_, ?_⟩
  · rw [h.awaitInput, hs]
    rfl
  · rw [InputSource.answer, if_neg (by omega)]

/-- From a source without end a cycle leaves a source without end, and does not end in a failed read. -/
theorem exec_endless {i : Instr} {s t : State} {k w : Nat} (hrun : s.run = .running) (hs : s.input = .endless k w)
    (h : exec i s = .next t) :
    (∃ k' w', t.input = .endless k' w') ∧ ∀ d, t.run ≠ .fatal (.inputFailed d) := by
  by_cases reads : readsInput i = true
  · rcases InputSource.answer_endless k w with ha | ha <;> rw [← hs] at ha
    · rw [exec_of_notYet reads ha] at h
      cases h
      exact ⟨⟨k, w + 1, rfl⟩, fun d e => by cases hrun.symm.trans e⟩
    · obtain ⟨u, kept, rfl | rfl⟩ := exec_reader_cases reads (by simp [ha]) h
      · rw [ha]
        exact ⟨⟨k + 1, 0, rfl⟩, fun d e => by cases (kept.run.trans hrun).symm.trans e⟩
      · exact ⟨⟨k, w, kept.input.trans hs⟩, fun d e => (nomatch e)⟩
  · have hwait : ¬mustWait i s := fun hwait => reads hwait.1
    have input : t.input = s.input := (exec_execFrame hwait h).input (Bool.eq_false_iff.mpr reads)
    refine ⟨⟨k, w, input.trans hs⟩, fun d e => ?_⟩
    rcases howACycleEnds i s t hrun h with hr | ⟨hr, -⟩ | ⟨hr, -⟩ | ⟨hr, -⟩ | ⟨-, reads', -⟩ | ⟨hr, -⟩
    case inr.inr.inr.inr.inl => exact reads reads'
    all_goals
      rw [hr] at e
      cases e

/-- Settles O33: the source without end by `exec_endless` and, once its delay has passed, `exec_reader_byte`; the source
that blocks for ever by the held step, which is then no move at all. -/
theorem sourcesWithoutEnd : Obligations.SourcesWithoutEnd := by
  refine ⟨fun s t k w hrun hs h => ?_, fun s k w hrun reads hs hsink => ?_, fun s hrun reads hs => ?_⟩
  · rw [step_of_running hrun] at h
    exact exec_endless (s := s.advancePc) hrun hs h
  · have reading : s.Reading := ⟨hrun, reads⟩
    obtain ⟨x, await, ready⟩ := reading.await_endless hs
    obtain ⟨t, h, value, input, run⟩ := exec_reader_byte (s := (s.withInput x).advancePc) reads hsink ready
    have hstep : step (s.withInput x) = .next t := (step_of_running (s := s.withInput x) hrun).trans h
    have hhost := State.hostStep_of_next await hstep
    rw [run.trans hrun] at hhost
    exact ⟨t, hhost, value, input⟩
  · have reading : s.Reading := ⟨hrun, reads⟩
    have hstep : step s = .next s := by
      have held := reading.step_of_notYet (rest := .silent) (by rw [hs]; rfl)
      rwa [← hs] at held
    refine ⟨hstep, reading.hostStep_eq_none_iff.mpr (by rw [hs]; rfl), fun fuel => ?_⟩
    induction fuel with
    | zero => exact runCycles_zero_of_running hrun
    | succ fuel ih => rw [runCycles_succ_of_next hrun hstep, ih]

end Sys2Proof.Machine
end

section
/-! Memory, reset and load (20_memory.md section 1, 70_reset_and_hazards.md sections 1 and 2). -/

namespace Sys2Proof.Machine

/-! ## One form for one content -/

theorem memReadByte_of_unlisted {m : Memory} {k : Nat} (h : ∀ c ∈ m, c.1 ≠ k) : memReadByte m k = unlistedByte := by
  induction m with
  | nil => rfl
  | cons c m ih =>
    rw [memReadByte, if_neg (h c List.mem_cons_self)]
    exact ih fun d hd => h d (List.mem_cons_of_mem _ hd)

/-- In a canonical memory the first key lies below every other, and its byte is not that of an unlisted key. -/
theorem Memory.wf_cons {c : Host.Cell} {m : Memory} (h : Memory.wf (c :: m)) :
    (∀ d ∈ m, c.1 < d.1) ∧ c.2 ≠ unlistedByte ∧ Memory.wf m := by
  obtain ⟨rising, entries⟩ := h
  obtain ⟨first, rest⟩ := List.pairwise_cons.mp rising
  exact ⟨first, (entries c List.mem_cons_self).2, rest, fun d hd => entries d (List.mem_cons_of_mem _ hd)⟩

theorem memReadByte_cons_self (c : Host.Cell) (m : Memory) : memReadByte (c :: m) c.1 = c.2 := if_pos rfl

theorem memReadByte_cons_of_ne {c : Host.Cell} {k : Nat} (m : Memory) (h : c.1 ≠ k) :
    memReadByte (c :: m) k = memReadByte m k := if_neg h

/-- The first key of a canonical memory is listed in every memory that reads alike, so none begins later. -/
theorem first_key_le {c d : Host.Cell} {m m' : Memory} (h : Memory.wf (c :: m)) (h' : Memory.wf (d :: m'))
    (alike : ∀ k, memReadByte (c :: m) k = memReadByte (d :: m') k) : d.1 ≤ c.1 := by
  obtain ⟨-, listed, -⟩ := Memory.wf_cons h
  obtain ⟨above, -, -⟩ := Memory.wf_cons h'
  by_contra hlt
  have unlisted : memReadByte (d :: m') c.1 = unlistedByte := memReadByte_of_unlisted fun e he => by
    rcases List.mem_cons.mp he with rfl | he
    · omega
    · have := above e he
      omega
  exact listed ((memReadByte_cons_self c m).symm.trans ((alike c.1).trans unlisted))

/-- Canonical memories that read alike at every key are equal. -/
theorem Memory.ext_of_bytes {m m' : Memory} (h : Memory.wf m) (h' : Memory.wf m')
    (alike : ∀ k, memReadByte m k = memReadByte m' k) : m = m' := by
  induction m generalizing m' with
  | nil =>
    cases m' with
    | nil => rfl
    | cons d m' =>
      obtain ⟨-, listed, -⟩ := Memory.wf_cons h'
      exact absurd ((memReadByte_cons_self d m').symm.trans (alike d.1).symm) listed
  | cons c m ih =>
    obtain ⟨above, listed, hm⟩ := Memory.wf_cons h
    cases m' with
    | nil => exact absurd ((memReadByte_cons_self c m).symm.trans (alike c.1)) listed
    | cons d m' =>
      obtain ⟨above', -, hm'⟩ := Memory.wf_cons h'
      have key : c.1 = d.1 := Nat.le_antisymm (first_key_le h' h fun k => (alike k).symm) (first_key_le h h' alike)
      have byte : c.2 = d.2 := by
        rw [← memReadByte_cons_self c m, alike, key, memReadByte_cons_self]
      have rest : m = m' := ih hm hm' fun k => by
        by_cases hk : c.1 = k
        · rw [memReadByte_of_unlisted fun e he => by have := above e he; omega,
            memReadByte_of_unlisted fun e he => by have := above' e he; omega]
        · rw [← memReadByte_cons_of_ne m hk, alike, memReadByte_cons_of_ne m' (key ▸ hk)]
      rw [Prod.ext key byte, rest]

theorem joinBytes_inj {hi lo hi' lo' : Byte} (h : joinBytes hi lo = joinBytes hi' lo') : hi = hi' ∧ lo = lo' := by
  have high : ∀ a b : Byte, (joinBytes a b).extractLsb' 8 8 = a := fun a b => BitVec.extractLsb'_append_eq_left
  have low : ∀ a b : Byte, (joinBytes a b).extractLsb' 0 8 = b := fun a b => BitVec.extractLsb'_append_eq_right
  exact ⟨by rw [← high hi lo, h, high], by rw [← low hi lo, h, low]⟩

/-- Every key below the end of the memory is one of the two keys of a cell. -/
theorem bytes_alike_of_words_alike {m m' : Memory} (h : Memory.wf m) (h' : Memory.wf m')
    (alike : ∀ a, memRead m a = memRead m' a) (k : Nat) : memReadByte m k = memReadByte m' k := by
  by_cases hk : k < memoryBytes
  · have cell : (BitVec.ofNat 16 (k / 2)).toNat = k / 2 := by
      unfold memoryBytes at hk
      rw [BitVec.toNat_ofNat]
      omega
    have word := alike (BitVec.ofNat 16 (k / 2))
    rw [memRead, memRead, cell] at word
    obtain ⟨high, low⟩ := joinBytes_inj word
    rcases Nat.mod_two_eq_zero_or_one k with hpar | hpar
    · have hkey : 2 * (k / 2) = k := by omega
      rwa [hkey] at low
    · have hkey : 2 * (k / 2) + 1 = k := by omega
      rwa [hkey] at high
  · have outside : ∀ {m : Memory}, Memory.wf m → memReadByte m k = unlistedByte := fun hm =>
      memReadByte_of_unlisted fun c hc e => hk (e ▸ (hm.2 c hc).1)
    rw [outside h, outside h']

/-- Settles O54: alike at every cell is alike at every key, and the keys of a canonical memory rise. -/
theorem canonicalMemoryIsUnique : Obligations.CanonicalMemoryIsUnique := fun _ _ h h' alike =>
  Memory.ext_of_bytes h h' (bytes_alike_of_words_alike h h' alike)

/-! ## Reset -/

theorem resetWith_inv (p : Params) (env : Environment) (h : Memory.wf p.memReset) : (State.resetWith p env).Inv where
  memWf := h
  fatalLegal := fun _ hc => (nomatch hc)
  flushed := fun _ _ hb => (nomatch hb)

/-- Settles O56: after reset RUN is Running and the output is empty. -/
theorem resetMeetsInvariant : Obligations.ResetMeetsInvariant := ⟨resetWith_inv _ _ Memory.wf_nil, resetWith_inv⟩

theorem memRead_nil (a : Word) : memRead [] a = 0#16 :=
  calc memRead [] a = joinBytes unlistedByte unlistedByte := rfl
    _ = 0#16 := by decide

/-- Settles O58: the word at the PC is zero, a branch with an empty mask. -/
theorem resetDefaults : Obligations.ResetDefaults := by
  have cells : ∀ a, State.reset.readCell a = 0#16 := fun a => memRead_nil a
  have branch : decodeWord 0#16 = .br false false false 0#9 := by decide
  refine ⟨rfl, rfl, rfl, fun r => ?_, cells, ?_⟩
  · exact Vector.getElem_replicate _
  · have fetched : State.reset.fetchWord = 0#16 := cells _
    rw [step_of_running rfl, fetched, branch]
    exact exec_br_not_taken 0#9 (by decide)

/-! ## Load -/

/-- A cell after the storing of an image: the word of the image at its distance from the origin, if the image reaches so
far, and what stood there before if not. -/
theorem State.readCell_storeWords (s : State) (ws : List Word) (origin a : Word) (hlen : ws.length ≤ 65536) :
    (s.storeWords ws origin).readCell a = ws[(a - origin).toNat]?.getD (s.readCell a) := by
  induction ws generalizing s origin with
  | nil => rfl
  | cons w ws ih =>
    rw [List.length_cons] at hlen
    rw [State.storeWords, ih _ _ (by omega)]
    by_cases ha : a = origin
    · subst ha
      have far : (a - (a + 1#16)).toNat = 65535 := by bv_omega
      rw [far, List.getElem?_eq_none (by omega), State.readCell_writeCell_self]
      simp
    · have next : (a - origin).toNat = (a - (origin + 1#16)).toNat + 1 := by bv_omega
      rw [next, List.getElem?_cons_succ, State.readCell_writeCell_of_ne s w ha]

theorem plus16_sub_self (origin : Word) {k : Nat} (hk : k < 65536) : (plus16 origin k - origin).toNat = k := by
  rw [plus16_natCast, BitVec.add_comm, BitVec.add_sub_cancel, BitVec.toNat_ofNat]
  exact Nat.mod_eq_of_lt hk

theorem plus16_toNat_sub (origin a : Word) : plus16 origin (a - origin).toNat = a := by
  rw [plus16_toNat, BitVec.add_comm, BitVec.sub_add_cancel]

/-- A loaded machine meets the invariant: it runs, and its streams are as they were. -/
theorem load_inv {s : State} (inv : s.Inv) (ws : List Word) (origin : Word) :
    (((s.storeWords ws origin).withPc origin).withRun .running).Inv := by
  obtain ⟨⟨m, hm⟩, canonical⟩ := s.storeWords_frame ws origin
  refine ⟨canonical inv.memWf, fun _ hc => (nomatch hc), ?_⟩
  rw [hm]
  exact inv.flushed

/-- Settles O59: the cells by `readCell_storeWords`, everything else since the image goes to memory alone. -/
theorem loadPlacesTheImage : Obligations.LoadPlacesTheImage := by
  intro s words origin
  refine ⟨fun hlen => ⟨_, if_pos hlen, fun k hk => ?_, fun a ha => ?_, rfl, rfl, ?_⟩,
    fun hlen => if_neg (Nat.not_le.mpr hlen)⟩
  · rw [State.readCell_withRun, State.readCell_withPc, s.readCell_storeWords words origin _ hlen,
      plus16_sub_self origin (by omega), List.getElem?_eq_getElem hk, Option.getD_some]
  · have outside : words.length ≤ (a - origin).toNat := by
      by_contra hlt
      exact ha _ (Nat.not_le.mp hlt) (plus16_toNat_sub origin a).symm
    rw [State.readCell_withRun, State.readCell_withPc, s.readCell_storeWords words origin a hlen,
      List.getElem?_eq_none outside, Option.getD_none]
  · obtain ⟨⟨m, hm⟩, -⟩ := s.storeWords_frame words origin
    refine ⟨?_, ?_, ?_, ?_, fun inv => load_inv inv words origin⟩ <;> rw [hm]
    · exact fun _ _ => rfl
    · rfl
    · exact ⟨rfl, rfl, rfl⟩
    · rfl

end Sys2Proof.Machine
end
